-- ==== Sys2Proof/Word.lean ====
section
/-! DEFINITION. Word.lean: the value domain `I64`, the 132-bit instruction word, and the names the spec gives registers,
operand kinds and opcodes (00_scope.md R6, R10, R12; 10_state.md R20; 30_encoding.md R60, R75). -/

namespace Sys2Proof

/-- A member of `I64` (00_scope.md R6): 64 bits, read as a signed two's-complement integer by `BitVec.toInt`
(UNVERIFIED, the spec's decision D1; assumption 3). The program counter is one too (R7, D2). -/
abbrev Word := BitVec 64

/-- A binary instruction word, bits 131 down to 0 (00_scope.md R10; 30_encoding.md R74; assumption 9). -/
abbrev InstrWord := BitVec 132

/-- The least member of `I64`, -2^63 (00_scope.md R6). -/
def i64Min : Int := -9223372036854775808

/-- The greatest member of `I64`, 2^63 - 1 (00_scope.md R6). -/
def i64Max : Int := 9223372036854775807

/-- The integer lies in `I64` (00_scope.md R6). -/
abbrev InI64 (z : Int) : Prop := i64Min ≤ z ∧ z ≤ i64Max

/-- The four register identifiers, a closed set (10_state.md R20). -/
inductive Reg where
  | a | b | c | d
deriving DecidableEq, Repr

/-- An operand that is either a literal integer or a register reference (30_encoding.md R60). -/
inductive Value where
  | imm (k : Word)
  | reg (r : Reg)
deriving DecidableEq, Repr

/-- The four opcodes, a closed set (00_scope.md R2). -/
inductive Opcode where
  | cpy | inc | dec | jnz
deriving DecidableEq, Repr

end Sys2Proof
end

