-- ==== Sys2Proof/Config.lean ====
section
/-! DEFINITION. Config.lean: the parameters of 00_scope.md section 5 that the source leaves open: the overflow policy
OVF (R9) and the capacity NMAX of the instruction store (R8). -/

namespace Sys2Proof

/-- The policies for a 64-bit signed sum that leaves `I64` which raise nothing (93_implementation_defined.md U1).
The third policy the source names, trap, is none of them: execution "has no error conditions" (90_conflicts.md C3,
60_exceptions.md R134). -/
inductive OverflowPolicy where
  /-- reduce modulo 2^64 into `I64` -/
  | wrap
  /-- clamp to the nearer end of `I64` -/
  | saturate
deriving DecidableEq, Repr

/-- Parameter OVF = wrap (00_scope.md R9). UNVERIFIED: the spec's decision D4 on a point its source leaves open;
unsafe, see assumption 4. -/
def Config.ovf : OverflowPolicy := .wrap

/-- The values the open parameter NMAX may take, `0 <= NMAX <= 2^63 - 1` (00_scope.md R8, D3). The load operations
take one as an argument, so a claim about them holds for every capacity (assumption 5). -/
abbrev Config.Capacity := Fin 9223372036854775808

/-- The largest capacity, which R8 says a model may take. -/
def Config.largestCapacity : Config.Capacity := 9223372036854775807

end Sys2Proof
end

