-- ==== Sys2Proof/Syntax.lean ====
section
/-! DEFINITION. Syntax.lean: the instructions, one constructor for each row of spec/opcode_table.json
(30_encoding.md R77). The four abstract forms of R60 are these eight with the operand kinds told apart; the functions
`Instr.copy` and `Instr.jump` of Decode.lean put a form and its `Value` operands together again (assumption 19). -/

namespace Sys2Proof

/-- An instruction. Every value of this type is a legal instruction (30_encoding.md R60 and section 4). -/
inductive Instr where
  /-- `cpy <imm> <reg>`: `Copy(Imm(k), dst)`. -/
  | cpyImmReg (k : Word) (dst : Reg)
  /-- `cpy <reg> <reg>`: `Copy(Reg(src), dst)`. -/
  | cpyRegReg (src dst : Reg)
  /-- `inc <reg>`: `Increment(r)`. -/
  | incReg (r : Reg)
  /-- `dec <reg>`: `Decrement(r)`. -/
  | decReg (r : Reg)
  /-- `jnz <imm> <imm>`: `JumpIfNonZero(Imm(cond), Imm(off))`. -/
  | jnzImmImm (cond off : Word)
  /-- `jnz <imm> <reg>`: `JumpIfNonZero(Imm(cond), Reg(off))`. -/
  | jnzImmReg (cond : Word) (off : Reg)
  /-- `jnz <reg> <imm>`: `JumpIfNonZero(Reg(cond), Imm(off))`. -/
  | jnzRegImm (cond : Reg) (off : Word)
  /-- `jnz <reg> <reg>`: `JumpIfNonZero(Reg(cond), Reg(off))`. -/
  | jnzRegReg (cond off : Reg)
deriving DecidableEq, Repr

end Sys2Proof
end

