-- ==== Sys2Proof/WellFormed.lean ====
section
/-! DEFINITION. WellFormed.lean: which binary words and images are legal, said by the rows of spec/opcode_table.json
alone and so without the decoder (30_encoding.md R77, R79, R80). An abstract instruction has nothing to check: a value of
`Instr` holds 64-bit immediates and one of four registers, and "every value of the type of rule R60 is a legal
instruction" (30_encoding.md section 4). -/

namespace Sys2Proof

/-- One row of the opcode table: a word `w` is of this form when `w &&& mask = pattern`. -/
structure TableRow where
  mask : InstrWord
  pattern : InstrWord
deriving DecidableEq, Repr

/-- The word is of the row's form. -/
def TableRow.fits (row : TableRow) (w : InstrWord) : Bool := w &&& row.mask == row.pattern

/-- The row of spec/opcode_table.json that an instruction's constructor stands for. -/
def Instr.row : Instr → TableRow
  | .cpyImmReg _ _ => ⟨0xF0000000000000000FFFFFFFFFFFFFFFC, 0x100000000000000000000000000000000⟩
  | .cpyRegReg _ _ => ⟨0xFFFFFFFFFFFFFFFFCFFFFFFFFFFFFFFFC, 0x300000000000000000000000000000000⟩
  | .incReg _ => ⟨0xFFFFFFFFFFFFFFFFCFFFFFFFFFFFFFFFF, 0x600000000000000000000000000000000⟩
  | .decReg _ => ⟨0xFFFFFFFFFFFFFFFFCFFFFFFFFFFFFFFFF, 0xA00000000000000000000000000000000⟩
  | .jnzImmImm _ _ => ⟨0xF00000000000000000000000000000000, 0xC00000000000000000000000000000000⟩
  | .jnzImmReg _ _ => ⟨0xF0000000000000000FFFFFFFFFFFFFFFC, 0xD00000000000000000000000000000000⟩
  | .jnzRegImm _ _ => ⟨0xFFFFFFFFFFFFFFFFC0000000000000000, 0xE00000000000000000000000000000000⟩
  | .jnzRegReg _ _ => ⟨0xFFFFFFFFFFFFFFFFCFFFFFFFFFFFFFFFC, 0xF00000000000000000000000000000000⟩

/-- The eight rows, in the table's order. -/
def opcodeRows : List TableRow :=
  [(Instr.cpyImmReg 0 .a).row, (Instr.cpyRegReg .a .a).row, (Instr.incReg .a).row, (Instr.decReg .a).row,
   (Instr.jnzImmImm 0 0).row, (Instr.jnzImmReg 0 .a).row, (Instr.jnzRegImm .a 0).row, (Instr.jnzRegReg .a .a).row]

/-- A word is legal when it fits a row (30_encoding.md R77); every other word is reserved (R79). -/
def legalWord (w : InstrWord) : Bool := opcodeRows.any (fun row => row.fits w)

/-- An image within the capacity, every word of it legal (30_encoding.md R80). -/
def imageWellFormed (nmax : Config.Capacity) (image : List InstrWord) : Bool :=
  decide (image.length ≤ nmax.val) && image.all legalWord

end Sys2Proof
end

