-- ==== Sys2Proof/Decode.lean ====
section
/-! DEFINITION. Decode.lean: the binary instruction word, read and written (30_encoding.md section 3, R74 to R79).
UNVERIFIED throughout: the word is the spec's own (decisions D5 to D7); assumption 9. -/

namespace Sys2Proof

/-- `Copy(v, dst)` of 30_encoding.md R60. -/
def Instr.copy : Value → Reg → Instr
  | .imm k, dst => .cpyImmReg k dst
  | .reg src, dst => .cpyRegReg src dst

/-- `JumpIfNonZero(cond, off)` of 30_encoding.md R60. -/
def Instr.jump : Value → Value → Instr
  | .imm cond, .imm off => .jnzImmImm cond off
  | .imm cond, .reg off => .jnzImmReg cond off
  | .reg cond, .imm off => .jnzRegImm cond off
  | .reg cond, .reg off => .jnzRegReg cond off

/-- Why a word is reserved: the three cases of 30_encoding.md R79. The spec's verdict is `Reserved` alone; where a word
is reserved for several reasons the decoder names the first it meets, control nibble first, then `x`, then `y`. -/
inductive Reserved where
  /-- reserved control nibble -/
  | controlNibble
  /-- a payload of register kind with any of bits 63:2 set -/
  | registerBits
  /-- an `inc` or `dec` with `y` not 0 -/
  | unusedPayload
deriving DecidableEq, Repr

/-! ### Fields -/

/-- The register number of `r` (10_state.md R20, decision D6). -/
def Reg.number : Reg → BitVec 2
  | .a => 0#2
  | .b => 1#2
  | .c => 2#2
  | .d => 3#2

/-- The register of a number, `reg(…)` of 30_encoding.md R77. -/
def Reg.ofNumber (n : BitVec 2) : Reg :=
  if n = 0#2 then .a else if n = 1#2 then .b else if n = 2#2 then .c else .d

/-- The opcode field's value for an opcode (30_encoding.md R75). -/
def Opcode.bits : Opcode → BitVec 2
  | .cpy => 0#2
  | .inc => 1#2
  | .dec => 2#2
  | .jnz => 3#2

/-- The opcode an opcode field selects; all four values are used (30_encoding.md R75). -/
def Opcode.ofBits (n : BitVec 2) : Opcode :=
  if n = 0#2 then .cpy else if n = 1#2 then .inc else if n = 2#2 then .dec else .jnz

/-- Bits 131:130, `op` (30_encoding.md R74). -/
def opField (w : InstrWord) : BitVec 2 := w.extractLsb' 130 2

/-- Bit 129, `xk`: the first operand is of register kind (30_encoding.md R74). -/
def xkField (w : InstrWord) : Bool := w.getLsbD 129

/-- Bit 128, `yk`: the second operand is of register kind (30_encoding.md R74). -/
def ykField (w : InstrWord) : Bool := w.getLsbD 128

/-- Bits 127:64, `x` (30_encoding.md R74). -/
def xField (w : InstrWord) : Word := w.extractLsb' 64 64

/-- Bits 63:0, `y` (30_encoding.md R74). -/
def yField (w : InstrWord) : Word := w.extractLsb' 0 64

/-- `w = op ‖ xk ‖ yk ‖ x ‖ y` (30_encoding.md R74). -/
def assemble (op : BitVec 2) (xk yk : Bool) (x y : Word) : InstrWord :=
  op ++ BitVec.ofBool xk ++ BitVec.ofBool yk ++ x ++ y

/-! ### Decoding -/

/-- The register a payload of register kind names; bits 63:2 must be zero (30_encoding.md R76). -/
def decodeReg (p : Word) : Except Reserved Reg :=
  if p.extractLsb' 2 62 = 0#62 then .ok (Reg.ofNumber (p.extractLsb' 0 2)) else .error .registerBits

/-- `operand(k, p)` of 30_encoding.md R78: an immediate is the whole payload, neither extended, scaled nor shifted. -/
def decodeValue (k : Bool) (p : Word) : Except Reserved Value :=
  if k then (decodeReg p).map .reg else .ok (.imm p)

/-- An `inc` or `dec` word's one operand: of register kind, with nothing in the second position (30_encoding.md R78). -/
def decodeOnlyReg (xk yk : Bool) (x y : Word) : Except Reserved Reg :=
  if xk = false ∨ yk = true then .error .controlNibble
  else match decodeReg x with
    | .error e => .error e
    | .ok r => if y = 0#64 then .ok r else .error .unusedPayload

/-- `decode` of 30_encoding.md R78: an instruction, or the reason the word is reserved. -/
def decode (w : InstrWord) : Except Reserved Instr :=
  match Opcode.ofBits (opField w) with
  | .cpy =>
    if ykField w = false then .error .controlNibble
    else do
      let v ← decodeValue (xkField w) (xField w)
      let dst ← decodeReg (yField w)
      .ok (Instr.copy v dst)
  | .inc => (decodeOnlyReg (xkField w) (ykField w) (xField w) (yField w)).map .incReg
  | .dec => (decodeOnlyReg (xkField w) (ykField w) (xField w) (yField w)).map .decReg
  | .jnz => do
    let cond ← decodeValue (xkField w) (xField w)
    let off ← decodeValue (ykField w) (yField w)
    .ok (Instr.jump cond off)

/-! ### Encoding -/

/-- The payload that names register `r`: its number, zero-extended (30_encoding.md R76). -/
def encodeReg (r : Reg) : Word := r.number.setWidth 64

/-- `encode` of 30_encoding.md R78, row by row from the table of R77. An unused operand position has kind 0 and
payload 0 (R76). -/
def encode : Instr → InstrWord
  | .cpyImmReg k dst => assemble (Opcode.bits .cpy) false true k (encodeReg dst)
  | .cpyRegReg src dst => assemble (Opcode.bits .cpy) true true (encodeReg src) (encodeReg dst)
  | .incReg r => assemble (Opcode.bits .inc) true false (encodeReg r) 0#64
  | .decReg r => assemble (Opcode.bits .dec) true false (encodeReg r) 0#64
  | .jnzImmImm cond off => assemble (Opcode.bits .jnz) false false cond off
  | .jnzImmReg cond off => assemble (Opcode.bits .jnz) false true cond (encodeReg off)
  | .jnzRegImm cond off => assemble (Opcode.bits .jnz) true false (encodeReg cond) off
  | .jnzRegReg cond off => assemble (Opcode.bits .jnz) true true (encodeReg cond) (encodeReg off)

/-! ### The host's numbering -/

/-- The instruction word of the number `w`. There is one instruction length (30_encoding.md R61), so a row's `nbits` cuts
nothing off below bit 132; none where the number has a bit above 131 (assumption 20). -/
def wordOfNumber (nbits w : Nat) : Option InstrWord :=
  let n := w % 2 ^ max nbits 132
  if n < 2 ^ 132 then some (BitVec.ofNat 132 n) else none

/-- What the decoder reads from the instruction whose bits are `w`. An instruction is ONE word (30_encoding.md R61), so
the table's bit numbers are the word's. -/
def decodeTableWord (nbits w : Nat) : Option Instr :=
  match wordOfNumber nbits w with
  | none => none
  | some word =>
    match decode word with
    | .ok i => some i
    | .error _ => none

end Sys2Proof
end

