-- ==== Sys2Proof/Machine/State.lean ====
section
/-! DEFINITION. Machine/State.lean: the whole state of an engine instance (10_state.md), what can stop a step, and the
state after reset. -/

namespace Sys2Proof.Machine

/-- The state of one engine: "exactly the fields `a`, `b`, `c`, `d` and `pc`" (10_state.md R30), and beside them the
program, which the spec takes as a parameter of the step and which no operation changes (R33; DEDUCED, assumption 1). -/
structure State where
  /-- general register `a` (10_state.md R20, R21) -/
  a : Word
  /-- general register `b` (10_state.md R20, R21) -/
  b : Word
  /-- general register `c` (10_state.md R20, R21) -/
  c : Word
  /-- general register `d` (10_state.md R20, R21) -/
  d : Word
  /-- the program counter, a signed index of slots (10_state.md R24) -/
  pc : Word
  /-- the instruction store: slot `i` holds the word of `prog[i]`, and N is its length (20_memory.md R40,
  30_encoding.md R74; DESIGN CHOICE, assumption 2) -/
  prog : List InstrWord
deriving DecidableEq, Repr

/-- Faults. There are none: "No instruction raises an exception, under any operand values and in any state"
(60_exceptions.md R120), so nothing raises one and the type has no constructor. -/
inductive Fault where
deriving DecidableEq, Repr

/-- Why a step is refused. -/
inductive Refusal where
  /-- Raised by an arm of `exec` whose instruction has no meaning yet; safe. No arm of this model raises it. -/
  | notModelled (mnemonic : String)
  /-- Raised by `step` where the slot that `pc` names holds a reserved word (30_encoding.md R79); safe. No load
  operation makes such a state: it refuses the image (R80). Assumption 7. -/
  | reservedEncoding
deriving DecidableEq, Repr

/-- The state right after a reset that loads the program `image`: all four registers 0 and `pc` 0 (10_state.md R34,
70_reset_and_hazards.md R150). -/
def State.load (image : List InstrWord) : State :=
  { a := 0, b := 0, c := 0, d := 0, pc := 0, prog := image }

/-- The state after reset with no program loaded, that is, of the empty program (DESIGN CHOICE, assumption 8). -/
def State.reset : State := State.load []

end Sys2Proof.Machine
end

