-- ==== Sys2Proof/Machine/Ops.lean ====
section
/-! DEFINITION. Machine/Ops.lean: the operations every instruction is made of: reading and writing a register, 64-bit
signed addition, the two updates of `pc`, the Halted test and the instruction fetch. Taking an exception and returning
from one are no operations of this machine: it has none (60_exceptions.md R120, R127, R128). -/

namespace Sys2Proof.Machine

/-! ### Registers -/

/-- `x[r]` (00_scope.md R13). No register is hard-wired and no read has an effect (10_state.md R22). -/
def readReg (s : State) (r : Reg) : Word :=
  match r with
  | .a => s.a
  | .b => s.b
  | .c => s.c
  | .d => s.d

/-- `x[r] <- v` (00_scope.md R13). -/
def writeReg (s : State) (r : Reg) (v : Word) : State :=
  match r with
  | .a => { s with a := v }
  | .b => { s with b := v }
  | .c => { s with c := v }
  | .d => { s with d := v }

/-! ### Arithmetic -/

/-- The unique member of `I64` congruent to `z` modulo 2^64 (40_execute_loop.md R91). -/
def wrap64 (z : Int) : Int := (z + 9223372036854775808) % 18446744073709551616 - 9223372036854775808

/-- The member of `I64` nearest to `z` (43_jnz.md R112, the policy not taken). -/
def saturate64 (z : Int) : Int := max i64Min (min i64Max z)

/-- The exact sum `z` brought into `I64` under an overflow policy (00_scope.md R9, 93_implementation_defined.md U1). -/
def narrow (policy : OverflowPolicy) (z : Int) : Int :=
  match policy with
  | .wrap => wrap64 z
  | .saturate => saturate64 z

/-- The machine's one arithmetic operation, `add64` (40_execute_loop.md R91): the exact sum, narrowed under OVF. No flag
is set and nothing is raised. The result out of range rests on the spec's decision D4 (UNVERIFIED, assumption 4). -/
def add64 (u v : Word) : Word := BitVec.ofInt 64 (narrow Config.ovf (u.toInt + v.toInt))

/-! ### The program counter -/

/-- `pc <- pc + 1` (10_state.md R25). A Running machine's `pc + 1` does not overflow (R28; assumption 17). -/
def advance (s : State) : State := { s with pc := s.pc + 1 }

/-- `pc <- add64(pc, off)`, in place of the + 1 (10_state.md R25, 43_jnz.md R110). -/
def jumpBy (s : State) (off : Word) : State := { s with pc := add64 s.pc off }

/-- Running: `0 <= pc < N` (10_state.md R27). -/
abbrev Running (s : State) : Prop := 0 ≤ s.pc.toInt ∧ s.pc.toInt < s.prog.length

/-- Halted: `pc < 0 or pc >= N`, the only halt condition and not a stored bit (10_state.md R27). -/
abbrev Halted (s : State) : Prop := s.pc.toInt < 0 ∨ (s.prog.length : Int) ≤ s.pc.toInt

/-! ### Fetch -/

/-- `IFetch(i)`: the word in slot `i`, defined exactly when `0 <= i < N` (20_memory.md R41). -/
def ifetch (prog : List InstrWord) (i : Int) : Option InstrWord :=
  match i with
  | .ofNat n => prog[n]?
  | .negSucc _ => none

/-- What the step's fetch and decode find (40_execute_loop.md R93, R94): nothing on a Halted machine, else the decoder's
verdict on the word in slot `pc`. -/
def fetchInstr (s : State) : Option (Except Reserved Instr) := (ifetch s.prog s.pc.toInt).map decode

end Sys2Proof.Machine
end

