-- ==== Sys2Proof/Machine/Operands.lean ====
section
/-! DEFINITION. Machine/Operands.lean: operand evaluation (40_execute_loop.md section 1). -/

namespace Sys2Proof.Machine

/-- `eval(v)`: an immediate is itself, a register reference is that register's content in the current state; it
cannot fail and changes nothing (40_execute_loop.md R90). -/
def eval (s : State) (v : Value) : Word :=
  match v with
  | .imm k => k
  | .reg r => readReg s r

end Sys2Proof.Machine
end

