-- ==== Sys2Proof/Machine/Flags.lean ====
section
/-! DEFINITION. Machine/Flags.lean: the machine has no flags and no condition codes (10_state.md R29). Its one condition
is the test of `jnz` on an evaluated operand, which is saved nowhere. -/

namespace Sys2Proof.Machine

/-- `eval(cond) != 0`, exact on the signed value: false for 0 only, true for every negative value
(40_execute_loop.md R92). -/
def nonZero (v : Word) : Bool := v.toInt != 0

end Sys2Proof.Machine
end

