-- ==== Sys2Proof/Machine/Copy.lean ====
section
/-! DEFINITION. Machine/Copy.lean: `cpy` (41_cpy.md). -/

namespace Sys2Proof.Machine

/-- `Copy(v, dst)`: `x[dst] <- eval(v); pc <- pc + 1` (41_cpy.md R100). -/
def copy (v : Value) (dst : Reg) (s : State) : State := advance (writeReg s dst (eval s v))

/-- `cpy <imm> <reg>` (41_cpy.md R100). -/
def execCpyImmReg (k : Word) (dst : Reg) (s : State) : Host.Outcome State Fault Refusal :=
  .next (copy (.imm k) dst s)

/-- `cpy <reg> <reg>` (41_cpy.md R100). -/
def execCpyRegReg (src dst : Reg) (s : State) : Host.Outcome State Fault Refusal :=
  .next (copy (.reg src) dst s)

end Sys2Proof.Machine
end

