-- ==== Sys2Proof/Machine/IncDec.lean ====
section
/-! DEFINITION. Machine/IncDec.lean: `inc` and `dec` (42_inc_dec.md). -/

namespace Sys2Proof.Machine

/-- `x[r] <- add64(x[r], k); pc <- pc + 1`, what `inc` and `dec` share (42_inc_dec.md R105, R106). -/
def addTo (r : Reg) (k : Word) (s : State) : State := advance (writeReg s r (add64 (readReg s r) k))

/-- `inc <reg>` (42_inc_dec.md R105). -/
def execIncReg (r : Reg) (s : State) : Host.Outcome State Fault Refusal := .next (addTo r 1 s)

/-- `dec <reg>` (42_inc_dec.md R106). -/
def execDecReg (r : Reg) (s : State) : Host.Outcome State Fault Refusal := .next (addTo r (-1) s)

end Sys2Proof.Machine
end

