-- ==== Sys2Proof/Machine/Jump.lean ====
section
/-! DEFINITION. Machine/Jump.lean: `jnz`, the only control transfer (43_jnz.md). -/

namespace Sys2Proof.Machine

/-- `JumpIfNonZero(cond, off)`: both operands evaluated in the state before the step; `pc` alone is written
(43_jnz.md R110). -/
def jumpIfNonZero (cond off : Value) (s : State) : State :=
  if nonZero (eval s cond) then jumpBy s (eval s off) else advance s

/-- `jnz <imm> <imm>` (43_jnz.md R110). -/
def execJnzImmImm (cond off : Word) (s : State) : Host.Outcome State Fault Refusal :=
  .next (jumpIfNonZero (.imm cond) (.imm off) s)

/-- `jnz <imm> <reg>` (43_jnz.md R110). -/
def execJnzImmReg (cond : Word) (off : Reg) (s : State) : Host.Outcome State Fault Refusal :=
  .next (jumpIfNonZero (.imm cond) (.reg off) s)

/-- `jnz <reg> <imm>` (43_jnz.md R110). -/
def execJnzRegImm (cond : Reg) (off : Word) (s : State) : Host.Outcome State Fault Refusal :=
  .next (jumpIfNonZero (.reg cond) (.imm off) s)

/-- `jnz <reg> <reg>` (43_jnz.md R110). -/
def execJnzRegReg (cond off : Reg) (s : State) : Host.Outcome State Fault Refusal :=
  .next (jumpIfNonZero (.reg cond) (.reg off) s)

end Sys2Proof.Machine
end

