-- ==== Sys2Proof/Machine/Dispatch.lean ====
section
/-! DEFINITION. Machine/Dispatch.lean: from an instruction to its meaning. The match is exhaustive; there is no default
arm (40_execute_loop.md R94). -/

namespace Sys2Proof.Machine

def exec (i : Instr) (s : State) : Host.Outcome State Fault Refusal :=
  match i with
  -- 41_cpy.md
  | .cpyImmReg k dst => Sys2Proof.Machine.execCpyImmReg k dst s
  | .cpyRegReg src dst => Sys2Proof.Machine.execCpyRegReg src dst s
  -- 42_inc_dec.md
  | .incReg r => Sys2Proof.Machine.execIncReg r s
  | .decReg r => Sys2Proof.Machine.execDecReg r s
  -- 43_jnz.md
  | .jnzImmImm cond off => Sys2Proof.Machine.execJnzImmImm cond off s
  | .jnzImmReg cond off => Sys2Proof.Machine.execJnzImmReg cond off s
  | .jnzRegImm cond off => Sys2Proof.Machine.execJnzRegImm cond off s
  | .jnzRegReg cond off => Sys2Proof.Machine.execJnzRegReg cond off s

end Sys2Proof.Machine
end

