-- ==== Sys2Proof/Machine/Step.lean ====
section
/-! DEFINITION. Machine/Step.lean: one step, which is the host's Step operation (70_reset_and_hazards.md R156), and how
the host of this package places a word where the next step fetches it. -/

namespace Sys2Proof.Machine

/-- `Step()` of 70_reset_and_hazards.md R156: on a Running machine fetch, decode and execute (40_execute_loop.md R93,
R94); on a Halted machine "performs nothing" (DEDUCED, assumption 6). A reserved word, which no loaded program holds,
is refused (assumption 7). -/
def step (s : State) : Host.Outcome State Fault Refusal :=
  match fetchInstr s with
  | none => .next s
  | some (.ok i) => exec i s
  | some (.error _) => .refused .reservedEncoding

/-- `s` with the word whose bits are `w` in the slot the next step fetches: slot `pc` of a Running machine, else slot 0
of a program of that one word, with `pc` at its entry point. It stands for a load from outside the machine
(assumption 8). A number that is no 132-bit word places nothing (assumption 20). -/
def State.withFetchWord (s : State) (nbits w : Nat) : State :=
  match wordOfNumber nbits w with
  | none => s
  | some word =>
    if Running s then { s with prog := s.prog.set s.pc.toInt.toNat word }
    else { s with prog := [word], pc := 0 }

end Sys2Proof.Machine
end

