-- ==== Sys2Proof/Machine/Parser.lean ====
section
/-! DEFINITION. Machine/Parser.lean: the Parser, from program text to a program or a load-time error (30_encoding.md
section 2, R62 to R73; 60_exceptions.md R121 to R125). Text is the list of its characters (assumption 11). The corner
cases the source does not mention are the spec's decisions D8 to D12 (UNVERIFIED, assumption 10). -/

namespace Sys2Proof.Machine

/-- Program text, a sequence of characters (30_encoding.md R62). -/
abbrev Text := List Char

/-- A maximal run of non-whitespace characters within a line (30_encoding.md R62). -/
abbrev Token := List Char

/-- The load-time errors, all fatal (60_exceptions.md R121, R122). Each carries the offending token or slot, for
diagnosis only (D16; assumption 12). -/
inductive LoadError where
  /-- a value token that is neither an integer literal nor a register (30_encoding.md R65) -/
  | malformedOperand (token : Token)
  /-- a register-position token that is no register (30_encoding.md R68) -/
  | malformedRegisterOperand (token : Token)
  /-- a recognized line with a number of tokens its opcode does not take (30_encoding.md R70) -/
  | operandCount
  /-- the first reserved word of an image, by its index (30_encoding.md R80) -/
  | reservedEncoding (index : Nat)
  /-- a program longer than NMAX, outside the domain of Construct (70_reset_and_hazards.md R152; assumption 12) -/
  | exceedsCapacity
deriving DecidableEq, Repr

/-! ### Lines and tokens -/

/-- The pieces of a text between the characters that satisfy `sep`, empty pieces included. -/
def splitBy (sep : Char → Bool) : Text → List Text
  | [] => [[]]
  | ch :: rest =>
    if sep ch then [] :: splitBy sep rest
    else match splitBy sep rest with
      | [] => [[ch]]
      | piece :: more => (ch :: piece) :: more

/-- LF, U+000A, which alone separates lines (30_encoding.md R62). -/
def isLineFeed (ch : Char) : Bool := ch.toNat == 0x0A

/-- Space, horizontal tab, carriage return, vertical tab and form feed (30_encoding.md R62, D10; UNVERIFIED: the spec
supplies the list from general knowledge, G1). -/
def isWhitespace (ch : Char) : Bool :=
  ch.toNat == 0x20 || ch.toNat == 0x09 || ch.toNat == 0x0D || ch.toNat == 0x0B || ch.toNat == 0x0C

/-- The lines of a text (30_encoding.md R62). -/
def linesOf (text : Text) : List Text := splitBy isLineFeed text

/-- The tokens of a line: leading, trailing and repeated whitespace is ignored (30_encoding.md R62). -/
def tokensOf (line : Text) : List Token := (splitBy isWhitespace line).filter (fun piece => !piece.isEmpty)

/-! ### Operands -/

/-- The value of a decimal digit. -/
def digitValue (ch : Char) : Option Nat :=
  if 0x30 ≤ ch.toNat ∧ ch.toNat ≤ 0x39 then some (ch.toNat - 0x30) else none

/-- The value of a run of decimal digits read after `acc`; none where a character is no digit. -/
def readDigits (acc : Nat) : Token → Option Nat
  | [] => some acc
  | ch :: rest =>
    match digitValue ch with
    | some n => readDigits (10 * acc + n) rest
    | none => none

/-- One or more decimal digits; leading zeros have no meaning (30_encoding.md R66). -/
def natLiteral (t : Token) : Option Nat :=
  match t with
  | [] => none
  | _ :: _ => readDigits 0 t

/-- An optional `-` and then one or more digits, of any size (30_encoding.md R66). -/
def intLiteral (t : Token) : Option Int :=
  match t with
  | '-' :: digits => (natLiteral digits).map (fun n : Nat => -Int.ofNat n)
  | digits => (natLiteral digits).map Int.ofNat

/-- An integer literal: the shape of `intLiteral` and a value in `I64` (30_encoding.md R66, D8). -/
def immediate (t : Token) : Option Word :=
  match intLiteral t with
  | some z => if InI64 z then some (BitVec.ofInt 64 z) else none
  | none => none

/-- A register token: one of the four lower-case letters (30_encoding.md R67, D11). -/
def registerToken (t : Token) : Option Reg :=
  if t = ['a'] then some .a
  else if t = ['b'] then some .b
  else if t = ['c'] then some .c
  else if t = ['d'] then some .d
  else none

/-- `value(t)`: an integer literal first, then a register, else fatal (30_encoding.md R65). -/
def value (t : Token) : Except LoadError Value :=
  match immediate t with
  | some k => .ok (.imm k)
  | none =>
    match registerToken t with
    | some r => .ok (.reg r)
    | none => .error (.malformedOperand t)

/-- `register(t)`: register lookup only (30_encoding.md R68). -/
def register (t : Token) : Except LoadError Reg :=
  match registerToken t with
  | some r => .ok r
  | none => .error (.malformedRegisterOperand t)

/-! ### Lines and programs -/

/-- The opcode a first token selects, by exact comparison (30_encoding.md R63, D11). -/
def opcodeToken (t : Token) : Option Opcode :=
  if t = ['c', 'p', 'y'] then some .cpy
  else if t = ['i', 'n', 'c'] then some .inc
  else if t = ['d', 'e', 'c'] then some .dec
  else if t = ['j', 'n', 'z'] then some .jnz
  else none

/-- The instruction of a recognized line: the count of operand tokens first (30_encoding.md R70), then the operands left
to right (R69, D12). -/
def instrOf (op : Opcode) (operands : List Token) : Except LoadError Instr :=
  match op, operands with
  | .cpy, [t1, t2] => do
    let v ← value t1
    let dst ← register t2
    .ok (Instr.copy v dst)
  | .inc, [t1] => (register t1).map .incReg
  | .dec, [t1] => (register t1).map .decReg
  | .jnz, [t1, t2] => do
    let cond ← value t1
    let off ← value t2
    .ok (Instr.jump cond off)
  | _, _ => .error .operandCount

/-- A line's instruction, none where the line is discarded: no token, or a first token that is no opcode
(30_encoding.md R64). -/
def lineInstr (tokens : List Token) : Except LoadError (Option Instr) :=
  match tokens with
  | [] => .ok none
  | first :: operands =>
    match opcodeToken first with
    | none => .ok none
    | some op => (instrOf op operands).map some

/-- The instructions of tokenized lines, first to last; the first error ends the parse (30_encoding.md R71). -/
def parseLines : List (List Token) → Except LoadError (List Instr)
  | [] => .ok []
  | line :: rest => do
    let here ← lineInstr line
    let after ← parseLines rest
    .ok (here.toList ++ after)

/-- `parse(text)` (30_encoding.md R71). -/
def parse (text : Text) : Except LoadError (List Instr) := parseLines ((linesOf text).map tokensOf)

end Sys2Proof.Machine
end

