-- ==== Sys2Proof/Machine/HostInterface.lean ====
section
/-! DEFINITION. Machine/HostInterface.lean: the host interface (70_reset_and_hazards.md section 2): the two
constructions, and the operations on an engine. -/

namespace Sys2Proof.Machine

/-! ### Construction, which is the reset (70_reset_and_hazards.md R150) -/

/-- `Construct(text)` (70_reset_and_hazards.md R152): the program is stored as the image of its text (30_encoding.md
R81). Every load-time error of the parse comes before the test of the capacity (assumption 12). -/
def construct (nmax : Config.Capacity) (text : Text) : Except LoadError State :=
  match parse text with
  | .error e => .error e
  | .ok program =>
    if program.length ≤ nmax.val then .ok (State.load (program.map encode)) else .error .exceedsCapacity

/-- The index of an image's first reserved word, the first word having index `start` (30_encoding.md R80). -/
def firstReserved (start : Nat) : List InstrWord → Option Nat
  | [] => none
  | w :: rest =>
    match decode w with
    | .ok _ => firstReserved (start + 1) rest
    | .error _ => some start

/-- `ConstructImage(image)` (70_reset_and_hazards.md R152, D20). An image has at most NMAX words (30_encoding.md R80),
so the capacity is tested first (assumption 12). -/
def constructImage (nmax : Config.Capacity) (image : List InstrWord) : Except LoadError State :=
  if image.length ≤ nmax.val then
    match firstReserved 0 image with
    | some index => .error (.reservedEncoding index)
    | none => .ok (State.load image)
  else .error .exceedsCapacity

/-! ### Operations on an engine -/

/-- What Step answers (70_reset_and_hazards.md R156). -/
inductive Status where
  | running
  | halted
deriving DecidableEq, Repr

/-- The machine's implicit state, a function of `pc` and N (10_state.md R27). -/
def status (s : State) : Status := if Running s then .running else .halted

/-- A run: "while 0 <= pc < N: step" (40_execute_loop.md R97). `Runs s t` says that a run begun in `s` ends in `t`; a
run that never ends ends in no `t`. -/
inductive Runs : State → State → Prop where
  | halted {s : State} (h : Halted s) : Runs s s
  | step {s t u : State} (h : Running s) (one : step s = .next t) (rest : Runs t u) : Runs s u

/-- `k` Steps one after another, stopping at the first fault or refusal (70_reset_and_hazards.md R156: a host bounds a
run by counting Steps). -/
def stepMany : Nat → State → Host.Outcome State Fault Refusal
  | 0, s => .next s
  | k + 1, s =>
    match step s with
    | .next t => stepMany k t
    | .fault why => .fault why
    | .refused why => .refused why

/-- The operations the host may issue on an engine it holds, between runs and between steps; during a run it has no
move (70_reset_and_hazards.md R151, R158; assumption 13). `step` and `readPC` are the spec's optional operations
(R156, R157; assumption 14). -/
inductive HostOp where
  | readRegister (r : Reg)
  | writeRegister (r : Reg) (v : Word)
  | run
  | step
  | readPC
deriving DecidableEq, Repr

/-- What the host gets back (70_reset_and_hazards.md R151). -/
inductive Reply where
  | nothing
  | value (v : Word)
  | status (st : Status)
deriving DecidableEq, Repr

/-- `Call op s reply t`: the operation `op` issued on the engine `s` returns `reply` and leaves `t`
(70_reset_and_hazards.md R151 to R157). A Run that never ends returns nothing to nobody: no `reply` and no `t`. -/
def Call (op : HostOp) (s : State) (reply : Reply) (t : State) : Prop :=
  match op with
  | .readRegister r => reply = .value (readReg s r) ∧ t = s
  | .writeRegister r v => reply = .nothing ∧ t = writeReg s r v
  | .run => reply = .nothing ∧ Runs s t
  | .step => step s = .next t ∧ reply = .status (status t)
  | .readPC => reply = .value s.pc ∧ t = s

end Sys2Proof.Machine
end

