-- ==== Sys2Proof/Machine/Printer.lean ====
section
/-! DEFINITION. Machine/Printer.lean: a program printed as text, "each instruction in the syntax of rule R69 with
immediates in decimal" (30_encoding.md R81). The spacing, one space between tokens and a line feed after each line, is
the model's (DESIGN CHOICE, assumption 18). -/

namespace Sys2Proof.Machine

/-- The character of a decimal digit. -/
def digitChar (n : Nat) : Char := Char.ofNat (0x30 + n)

/-- The decimal digits of `n`, at most `fuel` of them, no leading zero. -/
def decimalDigits : Nat → Nat → Token
  | 0, _ => []
  | fuel + 1, n => if n < 10 then [digitChar n] else decimalDigits fuel (n / 10) ++ [digitChar (n % 10)]

/-- An immediate in decimal (30_encoding.md R66). Twenty digits hold every member of `I64`. -/
def printImmediate (k : Word) : Token :=
  if k.toInt < 0 then '-' :: decimalDigits 20 k.toInt.natAbs else decimalDigits 20 k.toInt.natAbs

/-- A register's letter (30_encoding.md R67). -/
def printReg : Reg → Token
  | .a => ['a']
  | .b => ['b']
  | .c => ['c']
  | .d => ['d']

/-- A value operand (30_encoding.md R65). -/
def printValue : Value → Token
  | .imm k => printImmediate k
  | .reg r => printReg r

/-- The tokens of an instruction's line (30_encoding.md R69). -/
def printTokens : Instr → List Token
  | .cpyImmReg k dst => [['c', 'p', 'y'], printImmediate k, printReg dst]
  | .cpyRegReg src dst => [['c', 'p', 'y'], printReg src, printReg dst]
  | .incReg r => [['i', 'n', 'c'], printReg r]
  | .decReg r => [['d', 'e', 'c'], printReg r]
  | .jnzImmImm cond off => [['j', 'n', 'z'], printImmediate cond, printImmediate off]
  | .jnzImmReg cond off => [['j', 'n', 'z'], printImmediate cond, printReg off]
  | .jnzRegImm cond off => [['j', 'n', 'z'], printReg cond, printImmediate off]
  | .jnzRegReg cond off => [['j', 'n', 'z'], printReg cond, printReg off]

/-- Tokens with one space between each two. -/
def joinTokens : List Token → Text
  | [] => []
  | [t] => t
  | t :: rest => t ++ ' ' :: joinTokens rest

/-- A program as text, one instruction a line. -/
def print : List Instr → Text
  | [] => []
  | i :: rest => joinTokens (printTokens i) ++ '\n' :: print rest

end Sys2Proof.Machine
end

