-- ==== Sys2Proof/Safety.lean ====
section
/-! DEFINITION. Safety.lean: the terms in which claims speak of the machine: what a step may change, which states are
those of an engine, and what a safe run is. -/

namespace Sys2Proof.Machine

/-- Every register holds what it held. -/
abbrev SameRegs (s t : State) : Prop := ∀ r : Reg, readReg t r = readReg s r

/-- Every register but `r` holds what it held. -/
abbrev SameRegsBut (r : Reg) (s t : State) : Prop := ∀ q : Reg, q ≠ r → readReg t q = readReg s q

/-- What a `jnz` does whose condition evaluates to `cond` and its offset to `off` (43_jnz.md R110): no register and no
slot changes; not taken, `pc` advances by one; taken, `pc` becomes the exact sum, or where that leaves `I64` the sum
modulo 2^64 (the spec's decision D4, assumption 4). The last clause is of no Running state. -/
abbrev JumpEffect (cond off : Word) (s t : State) : Prop :=
  SameRegs s t ∧ t.prog = s.prog ∧
  (cond.toInt = 0 → t.pc = s.pc + 1) ∧
  (cond.toInt ≠ 0 →
    (InI64 (s.pc.toInt + off.toInt) → t.pc.toInt = s.pc.toInt + off.toInt) ∧
    (i64Max < s.pc.toInt + off.toInt → t.pc.toInt = s.pc.toInt + off.toInt - 2 ^ 64) ∧
    (s.pc.toInt + off.toInt < i64Min → t.pc.toInt = s.pc.toInt + off.toInt + 2 ^ 64))

/-- A line that takes no slot: no token, or a first token that is none of the four opcodes (30_encoding.md R64). -/
abbrev Discarded (line : Text) : Prop :=
  ∀ first rest, tokensOf line = first :: rest →
    first ∉ ["cpy".toList, "inc".toList, "dec".toList, "jnz".toList]

/-- The number of operand tokens an opcode takes (30_encoding.md R70). -/
def operandTokens : Opcode → Nat
  | .cpy | .jnz => 2
  | .inc | .dec => 1

/-- The integer a run of decimal digits denotes. -/
def decimalValue (digits : List (Fin 10)) : Nat := digits.foldl (fun n digit => 10 * n + digit.val) 0

/-- A run of decimal digits as text. -/
def decimalText (digits : List (Fin 10)) : Token := digits.map (fun digit => Char.ofNat (0x30 + digit.val))

/-- The invariant of an engine's store: at most 2^63 - 1 words, every one legal (00_scope.md R8, 30_encoding.md R80). -/
abbrev StoreInv (s : State) : Prop := imageWellFormed Config.largestCapacity s.prog = true

/-- The states a host can bring an engine into: constructed from text or from an image, and then any sequence of host
operations that return (70_reset_and_hazards.md R151, R158). Each Step, and each finished Run, is one of these. -/
inductive Engine (nmax : Config.Capacity) : State → Prop where
  | fromText {text : Text} {s : State} (built : construct nmax text = .ok s) : Engine nmax s
  | fromImage {image : List InstrWord} {s : State} (built : constructImage nmax image = .ok s) : Engine nmax s
  | after {s t : State} {op : HostOp} {reply : Reply} (before : Engine nmax s) (call : Call op s reply t) :
      Engine nmax t

/-- The next step neither faults nor is refused. -/
def Safe (s : State) : Prop := ∃ t, step s = .next t

end Sys2Proof.Machine
end

