-- ==== Sys2Proof/Certificates/Slice0/Obligations.lean ====
section
/-! DEFINITION. Certificates/Slice0/Obligations.lean: what is claimed of the machine, stated and not proved. Words of
tables and numbers come from spec/; "decision D<n>" is the spec's own choice, 92_eei_decisions.md. -/

open Sys2Proof Sys2Proof.Machine

/-! ### The instructions -/

/-- 41_cpy.md R100, both forms: the effect, the frame, the word and the text line. -/
def Obligations.CopyWritesTheEvaluatedSource : Prop :=
  (∀ (s : State) (dst : Reg),
    (∀ k : Word, ∃ t, exec (.cpyImmReg k dst) s = .next t ∧ readReg t dst = k ∧ SameRegsBut dst s t ∧
      t.pc = s.pc + 1 ∧ t.prog = s.prog) ∧
    (∀ src : Reg, ∃ t, exec (.cpyRegReg src dst) s = .next t ∧ readReg t dst = readReg s src ∧
      SameRegsBut dst s t ∧ t.pc = s.pc + 1 ∧ t.prog = s.prog)) ∧
  (∀ (k : Word) (dst : Reg), encode (.cpyImmReg k dst) = 0x1#4 ++ k ++ dst.number.setWidth 64) ∧
  (∀ src dst : Reg, encode (.cpyRegReg src dst) = 0x3#4 ++ src.number.setWidth 64 ++ dst.number.setWidth 64) ∧
  (∀ (t1 t2 : Token) (v : Value) (dst : Reg), value t1 = .ok v → register t2 = .ok dst →
    lineInstr ["cpy".toList, t1, t2] = .ok (some (Instr.copy v dst)))

/-- 42_inc_dec.md R105: the effect with both cases of its range, the frame, the word and the text line. The result at
2^63 - 1 is the spec's decision D4 (assumption 4). -/
def Obligations.IncrementAddsOne : Prop :=
  (∀ (s : State) (r : Reg), ∃ t, exec (.incReg r) s = .next t ∧
    ((readReg s r).toInt ≠ i64Max → (readReg t r).toInt = (readReg s r).toInt + 1) ∧
    ((readReg s r).toInt = i64Max → (readReg t r).toInt = i64Min) ∧
    SameRegsBut r s t ∧ t.pc = s.pc + 1 ∧ t.prog = s.prog) ∧
  (∀ r : Reg, encode (.incReg r) = 0x6#4 ++ (r.number.setWidth 64 : Word) ++ 0#64) ∧
  (∀ (t1 : Token) (r : Reg), register t1 = .ok r → lineInstr ["inc".toList, t1] = .ok (some (.incReg r)))

/-- 42_inc_dec.md R106: the effect with both cases of its range, the frame, the word and the text line. The result at
-2^63 is the spec's decision D4 (assumption 4). -/
def Obligations.DecrementSubtractsOne : Prop :=
  (∀ (s : State) (r : Reg), ∃ t, exec (.decReg r) s = .next t ∧
    ((readReg s r).toInt ≠ i64Min → (readReg t r).toInt = (readReg s r).toInt - 1) ∧
    ((readReg s r).toInt = i64Min → (readReg t r).toInt = i64Max) ∧
    SameRegsBut r s t ∧ t.pc = s.pc + 1 ∧ t.prog = s.prog) ∧
  (∀ r : Reg, encode (.decReg r) = 0xA#4 ++ (r.number.setWidth 64 : Word) ++ 0#64) ∧
  (∀ (t1 : Token) (r : Reg), register t1 = .ok r → lineInstr ["dec".toList, t1] = .ok (some (.decReg r)))

/-- 43_jnz.md R110, all four forms: the effect and frame (`JumpEffect`), the words and the text line. The `pc` of a sum
outside `I64` is the spec's decision D4 (assumption 4). -/
def Obligations.JumpReplacesTheIncrement : Prop :=
  (∀ s : State,
    (∀ cond off : Word, ∃ t, exec (.jnzImmImm cond off) s = .next t ∧ JumpEffect cond off s t) ∧
    (∀ (cond : Word) (off : Reg), ∃ t, exec (.jnzImmReg cond off) s = .next t ∧
      JumpEffect cond (readReg s off) s t) ∧
    (∀ (cond : Reg) (off : Word), ∃ t, exec (.jnzRegImm cond off) s = .next t ∧
      JumpEffect (readReg s cond) off s t) ∧
    (∀ cond off : Reg, ∃ t, exec (.jnzRegReg cond off) s = .next t ∧
      JumpEffect (readReg s cond) (readReg s off) s t)) ∧
  (∀ cond off : Word, encode (.jnzImmImm cond off) = 0xC#4 ++ cond ++ off) ∧
  (∀ (cond : Word) (off : Reg), encode (.jnzImmReg cond off) = 0xD#4 ++ cond ++ off.number.setWidth 64) ∧
  (∀ (cond : Reg) (off : Word), encode (.jnzRegImm cond off) = 0xE#4 ++ cond.number.setWidth 64 ++ off) ∧
  (∀ cond off : Reg,
    encode (.jnzRegReg cond off) = 0xF#4 ++ cond.number.setWidth 64 ++ off.number.setWidth 64) ∧
  (∀ (t1 t2 : Token) (cond off : Value), value t1 = .ok cond → value t2 = .ok off →
    lineInstr ["jnz".toList, t1, t2] = .ok (some (Instr.jump cond off)))

/-- 42_inc_dec.md R107, an inference of the spec: `inc r` and `dec r` undo each other on every value. Across the two
overflow points it rests on the spec's decision D4 (assumption 4). -/
def Obligations.IncrementAndDecrementUndoEachOther : Prop :=
  ∀ (s : State) (r : Reg),
    (∃ t u, exec (.incReg r) s = .next t ∧ exec (.decReg r) t = .next u ∧ SameRegs s u ∧ u.pc = s.pc + 2 ∧
      u.prog = s.prog) ∧
    (∃ t u, exec (.decReg r) s = .next t ∧ exec (.incReg r) t = .next u ∧ SameRegs s u ∧ u.pc = s.pc + 2 ∧
      u.prog = s.prog)

/-- 41_cpy.md R101, an inference of the spec: what an instruction other than a `cpy` into `r` can leave in `r`. -/
def Obligations.OnlyCopyWritesAnUnrelatedValue : Prop :=
  ∀ (i : Instr) (s t : State) (r : Reg), exec i s = .next t → (∀ v, i ≠ Instr.copy v r) →
    readReg t r = readReg s r ∨ (i = .incReg r ∧ readReg t r = readReg s r + 1) ∨
      (i = .decReg r ∧ readReg t r = readReg s r - 1)

/-- 41_cpy.md R101, an inference of the spec: "a program cannot read its own `pc`". Two machines that differ in `pc`
alone hold the same registers after any instruction. -/
def Obligations.RegistersDoNotLearnThePc : Prop :=
  ∀ (i : Instr) (s t t' : State) (p : Word), exec i s = .next t → exec i { s with pc := p } = .next t' → SameRegs t t'

/-- 43_jnz.md R111, an inference of the spec: "`jnz` is the only instruction that can set `pc` to anything but
`pc + 1`", and does so only where it is taken. -/
def Obligations.OnlyTakenJumpsLeaveTheNextSlot : Prop :=
  ∀ (i : Instr) (s t : State), exec i s = .next t → t.pc ≠ s.pc + 1 →
    ∃ cond off, i = Instr.jump cond off ∧ (eval s cond).toInt ≠ 0 ∧ (eval s off).toInt ≠ 1

/-! ### Arithmetic -/

/-- 40_execute_loop.md R91: `add64`, its wrapped value being the spec's decision D4 (assumption 4), and its three
uses. -/
def Obligations.SumWrapsIntoTheSignedRange : Prop :=
  (∀ u v : Word,
    (add64 u v).toInt = (u.toInt + v.toInt + 2 ^ 63) % 2 ^ 64 - 2 ^ 63 ∧
    (InI64 (u.toInt + v.toInt) → (add64 u v).toInt = u.toInt + v.toInt) ∧
    (∀ z : Int, InI64 z → z % 2 ^ 64 = (u.toInt + v.toInt) % 2 ^ 64 → z = (add64 u v).toInt)) ∧
  (∀ (s : State) (r : Reg),
    (∃ t, exec (.incReg r) s = .next t ∧ readReg t r = add64 (readReg s r) 1) ∧
    (∃ t, exec (.decReg r) s = .next t ∧ readReg t r = add64 (readReg s r) (-1))) ∧
  (∀ (s : State) (cond off : Value), (eval s cond).toInt ≠ 0 →
    ∃ t, exec (Instr.jump cond off) s = .next t ∧ t.pc = add64 s.pc (eval s off))

/-- 43_jnz.md R112, an inference of the spec: the target of a taken jump is inside the program under one overflow policy
exactly when the exact sum is, and the exact sum is never below -2^63. -/
def Obligations.HaltingDoesNotDependOnThePolicy : Prop :=
  ∀ (policy : OverflowPolicy) (p off : Word) (n : Nat), 0 ≤ p.toInt → p.toInt < n → (n : Int) ≤ i64Max →
    i64Min ≤ p.toInt + off.toInt ∧
    ((0 ≤ narrow policy (p.toInt + off.toInt) ∧ narrow policy (p.toInt + off.toInt) < n) ↔
      (0 ≤ p.toInt + off.toInt ∧ p.toInt + off.toInt < n))

/-! ### The step and the halt -/

/-- 40_execute_loop.md section 3: a Running machine's step is the decoded instruction of slot `pc`, and nothing is added
around it. -/
def Obligations.StepRunsTheDecodedInstruction : Prop :=
  ∀ (s : State) (w : InstrWord) (i : Instr), 0 ≤ s.pc.toInt → s.prog[s.pc.toInt.toNat]? = some w →
    decode w = .ok i → step s = exec i s

/-- 20_memory.md R41: the fetch is defined exactly inside the program, and a `pc` outside it fetches nothing. -/
def Obligations.FetchIsDefinedInsideTheProgram : Prop :=
  ∀ (prog : List InstrWord) (i : Int),
    ((∃ w, ifetch prog i = some w) ↔ 0 ≤ i ∧ i < prog.length) ∧
    (∀ (n : Nat) (h : n < prog.length), i = n → ifetch prog i = some prog[n])

/-- 40_execute_loop.md R95: the terminal condition, and the three ways to meet it. -/
def Obligations.ProgramsHaltInOneOfThreeWays : Prop :=
  (∀ s : State, fetchInstr s = none ↔ (s.pc.toInt < 0 ∨ (s.prog.length : Int) ≤ s.pc.toInt)) ∧
  (∀ s t : State, StoreInv s → Running s → step s = .next t → Halted t →
    (s.pc.toInt = s.prog.length - 1 ∧ t.pc.toInt = s.prog.length) ∨
    (∃ cond off, fetchInstr s = some (.ok (Instr.jump cond off)) ∧ (eval s cond).toInt ≠ 0 ∧
      ((s.prog.length : Int) ≤ t.pc.toInt ∨ t.pc.toInt < 0)))

/-- 10_state.md R28, an inference of the spec: a Running machine's `pc + 1` is exact, and past the last slot it is N. -/
def Obligations.NextSlotNeverOverflows : Prop :=
  ∀ s : State, StoreInv s → Running s →
    (s.pc + 1).toInt = s.pc.toInt + 1 ∧ (s.pc.toInt = s.prog.length - 1 → Halted { s with pc := s.pc + 1 })

/-- 40_execute_loop.md R98, an inference of the spec: a Running engine has exactly one successor, and none is stuck. -/
def Obligations.RunningEngineHasOneSuccessor : Prop :=
  ∀ s : State, StoreInv s → Running s → ∃ t, step s = .next t ∧ ∀ t', step s = .next t' → t' = t

/-- The model's choice, assumption 7: a step is refused exactly on a Running state whose slot `pc` holds a reserved word,
which no load operation makes (30_encoding.md R79, R80). -/
def Obligations.StepRefusesOnlyReservedWords : Prop :=
  ∀ (s : State) (why : Refusal), step s = .refused why ↔
    why = .reservedEncoding ∧ ∃ w, ifetch s.prog s.pc.toInt = some w ∧ legalWord w = false

/-- 40_execute_loop.md R99, an inference of the spec: "Halted is absorbing". No host operation on a Halted engine moves
its `pc`, and only WriteRegister changes it at all. That a Step does nothing there is R156 (assumption 6). -/
def Obligations.HaltedIsAbsorbing : Prop :=
  ∀ (op : HostOp) (s t : State) (reply : Reply), Halted s → Call op s reply t →
    Halted t ∧ t.pc = s.pc ∧ t.prog = s.prog ∧ ((∀ r v, op ≠ .writeRegister r v) → t = s)

/-! ### The run -/

/-- 40_execute_loop.md R98, an inference of the spec: "exactly one execution; it is either finite, ending in a Halted
state, or infinite", for every engine. -/
def Obligations.EveryRunEndsOnceOrNever : Prop :=
  ∀ s : State, StoreInv s →
    ((∃ t, Runs s t ∧ Halted t ∧ ∀ t', Runs s t' → t' = t) ∧
      ¬ (∀ k, ∃ t, stepMany k s = .next t ∧ Running t)) ∨
    ((∀ k, ∃ t, stepMany k s = .next t ∧ Running t) ∧ ∀ t, ¬ Runs s t)

/-- 70_reset_and_hazards.md R156: Step and its answer, and Run as Step until Halted. -/
def Obligations.RunIsStepUntilHalted : Prop :=
  (∀ (s t : State) (reply : Reply), Call .step s reply t →
    (Halted s → t = s) ∧ (Running t → reply = .status .running) ∧ (Halted t → reply = .status .halted)) ∧
  (∀ s t : State, Runs s t ↔ ∃ k, stepMany k s = .next t ∧ Halted t)

/-- 70_reset_and_hazards.md R155: when a Run returns, what it returns, and Run on a Halted engine. -/
def Obligations.RunReturnsExactlyWhenHalted : Prop :=
  (∀ (s t : State) (reply : Reply), Call .run s reply t → Halted t ∧ reply = .nothing) ∧
  (∀ (s t : State) (reply : Reply), Halted s → (Call .run s reply t ↔ t = s ∧ reply = .nothing)) ∧
  (∀ s t : State, Running s → step s = .next t → ∀ u, (Runs s u ↔ Runs t u))

/-- 43_jnz.md, corner case 4 of the jump: a taken jump by 0 is a spin, and the run never ends. -/
def Obligations.TakenJumpByZeroNeverEnds : Prop :=
  ∀ (s : State) (cond off : Value), fetchInstr s = some (.ok (Instr.jump cond off)) → (eval s cond).toInt ≠ 0 →
    (eval s off).toInt = 0 → step s = .next s ∧ ∀ t, ¬ Runs s t

/-! ### Reset, the store, and engines -/

/-- 10_state.md R34: construction is the reset; every piece of state has the table's value. -/
def Obligations.ConstructionIsTheReset : Prop :=
  ∀ (nmax : Config.Capacity) (text : Text),
    (∀ e, parse text = .error e → construct nmax text = .error e) ∧
    (∀ program, parse text = .ok program → program.length ≤ nmax.val →
      ∃ s, construct nmax text = .ok s ∧ (∀ r, readReg s r = 0) ∧ s.pc = 0 ∧ s.prog = program.map encode ∧
        (Running s ↔ 0 < program.length) ∧ (Halted s ↔ program.length = 0))

/-- The model's choice, assumption 8: the host's reset state is the engine of the empty program; its values are those of
10_state.md R34, and it meets the store invariant. -/
def Obligations.ResetIsTheEmptyEngine : Prop :=
  (∀ nmax : Config.Capacity, construct nmax [] = .ok State.reset) ∧ StoreInv State.reset ∧ Halted State.reset

/-- 10_state.md R33 and 20_memory.md R51: no instruction and no host operation changes the program, so the store
invariant is kept by all of them. -/
def Obligations.NoOperationChangesTheProgram : Prop :=
  (∀ s t : State, step s = .next t → t.prog = s.prog ∧ (StoreInv s → StoreInv t)) ∧
  (∀ (op : HostOp) (s t : State) (reply : Reply), Call op s reply t →
    t.prog = s.prog ∧ (StoreInv s → StoreInv t))

/-- 30_encoding.md R80: every engine a host can bring about, from text or from an image, meets the store invariant. -/
def Obligations.EnginesMeetTheStoreInvariant : Prop :=
  ∀ (nmax : Config.Capacity) (s : State), Engine nmax s → StoreInv s ∧ s.prog.length ≤ nmax.val

/-- 60_exceptions.md R120: no instruction raises anything in any state, and an engine, once constructed, runs for any
number of steps with neither a fault nor a refusal. -/
def Obligations.ExecutionRaisesNothing : Prop :=
  (∀ (i : Instr) (s : State), ∃ t, exec i s = .next t) ∧
  (∀ (nmax : Config.Capacity) (s : State), Engine nmax s →
    Safe s ∧ ∀ k, ∃ t, stepMany k s = .next t ∧ Safe t ∧ Engine nmax t)

/-- 70_reset_and_hazards.md R153 and R154, with R157: ReadRegister and ReadPC return the content and change nothing;
WriteRegister always succeeds, changes that register alone, is read back, and leaves a Halted engine Halted. -/
def Obligations.HostReadsBackWhatItWrites : Prop :=
  ∀ (s : State) (r : Reg) (v : Word),
    (∀ (t : State) (reply : Reply), Call (.readRegister r) s reply t ↔ reply = .value (readReg s r) ∧ t = s) ∧
    (∀ (t : State) (reply : Reply), Call .readPC s reply t ↔ reply = .value s.pc ∧ t = s) ∧
    ∃ t, (∀ (u : State) (reply : Reply), Call (.writeRegister r v) s reply u ↔ reply = .nothing ∧ u = t) ∧
      SameRegsBut r s t ∧ t.pc = s.pc ∧ t.prog = s.prog ∧ (Halted s → Halted t) ∧
      ∀ (u : State) (answer : Reply), Call (.readRegister r) t answer u → answer = .value v

/-! ### The binary word (decisions D5 to D7) -/

/-- 30_encoding.md R78: "For every abstract instruction `i`, `decode(encode(i))` = `i`". -/
def Obligations.DecodeReadsBackEveryInstruction : Prop := ∀ i : Instr, decode (encode i) = .ok i

/-- 30_encoding.md R77 and R78: the legal words are the words that fit one of the eight rows of opcode_table.json, no
word fits two, the decoder gives the row's instruction, and encoding that instruction gives the word back. -/
def Obligations.LegalWordsAreTheTableRows : Prop :=
  ∀ w : InstrWord,
    ((∃ i, decode w = .ok i) ↔ legalWord w = true) ∧
    (∀ i, decode w = .ok i → i.row.fits w = true ∧ encode i = w) ∧
    (∀ row₁ ∈ opcodeRows, ∀ row₂ ∈ opcodeRows, row₁.fits w = true → row₂.fits w = true → row₁ = row₂)

/-- 30_encoding.md R79: the reserved words, case by case; an image that holds one is refused, and no word of a
constructed engine is one. -/
def Obligations.ReservedWordsAreTheThreeCases : Prop :=
  (∀ w : InstrWord, (∃ why, decode w = .error why) ↔
    (w.extractLsb' 128 4 ∈ [0x0#4, 0x2#4, 0x4#4, 0x5#4, 0x7#4, 0x8#4, 0x9#4, 0xB#4] ∨
     (w.getLsbD 129 = true ∧ w.extractLsb' 66 62 ≠ 0) ∨ (w.getLsbD 128 = true ∧ w.extractLsb' 2 62 ≠ 0) ∨
     (w.extractLsb' 128 4 ∈ [0x6#4, 0xA#4] ∧ w.extractLsb' 0 64 ≠ 0))) ∧
  (∀ (nmax : Config.Capacity) (image : List InstrWord) (w : InstrWord) (why : Reserved), w ∈ image →
    decode w = .error why → image.length ≤ nmax.val →
      ∃ index, constructImage nmax image = .error (.reservedEncoding index)) ∧
  (∀ (nmax : Config.Capacity) (s : State) (w : InstrWord), Engine nmax s → w ∈ s.prog → ∃ i, decode w = .ok i)

/-- 95_test_vectors.md part 5: words written out by the spec, one of each form and one of each reserved case. -/
def Obligations.WordsOfTheSpecDecode : Prop :=
  decode 0x100000000000000290000000000000000 = .ok (.cpyImmReg 41 .a) ∧
  decode 0x300000000000000010000000000000002 = .ok (.cpyRegReg .b .c) ∧
  decode 0x600000000000000030000000000000000 = .ok (.incReg .d) ∧
  decode 0xA00000000000000020000000000000000 = .ok (.decReg .c) ∧
  decode 0xCFFFFFFFFFFFFFFFF0000000000000005 = .ok (.jnzImmImm (-1) 5) ∧
  decode 0xD00000000000000010000000000000003 = .ok (.jnzImmReg 1 .d) ∧
  decode 0xE0000000000000002FFFFFFFFFFFFFFFE = .ok (.jnzRegImm .c (-2)) ∧
  decode 0xF00000000000000030000000000000003 = .ok (.jnzRegReg .d .d) ∧
  decode 0x000000000000000000000000000000000 = .error .controlNibble ∧
  decode 0x300000000000000040000000000000000 = .error .registerBits ∧
  decode 0x600000000000000010000000000000001 = .error .unusedPayload

/-- 30_encoding.md R80: a well-formed image is loaded, slot `i` executing as `decode(image[i])`; any other within the capacity is refused for its
first reserved word. -/
def Obligations.ImagesLoadOrNameTheirFirstReservedWord : Prop :=
  ∀ (nmax : Config.Capacity) (image : List InstrWord), image.length ≤ nmax.val →
    ((∀ w ∈ image, legalWord w = true) → ∃ s, constructImage nmax image = .ok s ∧ s = State.load image ∧
      ∀ p : Word, 0 ≤ p.toInt → fetchInstr { s with pc := p } = image[p.toInt.toNat]?.map decode) ∧
    (∀ (before after : List InstrWord) (w : InstrWord), image = before ++ w :: after →
      (∀ u ∈ before, legalWord u = true) → legalWord w = false →
      constructImage nmax image = .error (.reservedEncoding before.length))

/-! ### The assembly text -/

/-- 30_encoding.md R64: a discarded line yields no instruction, takes no slot and raises nothing, wherever it stands. -/
def Obligations.DiscardedLinesTakeNoSlot : Prop :=
  ∀ before line after : Text, '\n' ∉ line → Discarded line →
    parse line = .ok [] ∧ parse (before ++ '\n' :: line ++ '\n' :: after) = parse (before ++ '\n' :: after)

/-- 30_encoding.md R71: lines keep their order, so a program's slots are its recognized lines, and the first offending
line ends the parse whatever follows it. -/
def Obligations.LinesParseInOrder : Prop :=
  ∀ before after : Text,
    (∀ p q, parse before = .ok p → parse after = .ok q → parse (before ++ '\n' :: after) = .ok (p ++ q)) ∧
    (∀ e, parse before = .error e → parse (before ++ '\n' :: after) = .error e) ∧
    (∀ p e, parse before = .ok p → parse after = .error e → parse (before ++ '\n' :: after) = .error e)

/-- 30_encoding.md R65: a value token is an integer literal if it can be, else a register, else fatal; it is never
both. -/
def Obligations.ValueTokensResolveInOrder : Prop :=
  ∀ t : Token,
    (∀ k, immediate t = some k → value t = .ok (.imm k) ∧ ∀ r, register t ≠ .ok r) ∧
    (∀ r, immediate t = none → register t = .ok r → value t = .ok (.reg r)) ∧
    (immediate t = none → (∀ r, register t ≠ .ok r) → value t = .error (.malformedOperand t))

/-- 30_encoding.md R66: the integer literals are an optional `-` and then decimal digits, with a value in `I64`, and
nothing else is one (decision D8). That digits whose value is outside `I64` end as `MalformedOperand` is an inference of
the spec, the sentence of R66 it marks as derived from R65 and 00_scope.md R6. -/
def Obligations.IntegerLiteralsAreSignedDecimals : Prop :=
  (∀ (digits : List (Fin 10)) (t : Token) (z : Int), digits ≠ [] →
    (t = decimalText digits ∧ z = decimalValue digits ∨ t = '-' :: decimalText digits ∧ z = -decimalValue digits) →
      (InI64 z → immediate t = some (BitVec.ofInt 64 z) ∧ value t = .ok (.imm (BitVec.ofInt 64 z))) ∧
      (¬ InI64 z → immediate t = none ∧ value t = .error (.malformedOperand t))) ∧
  (∀ t : Token, (∀ digits, digits ≠ [] → t ≠ decimalText digits ∧ t ≠ '-' :: decimalText digits) →
    immediate t = none)

/-- 30_encoding.md R67 and R68: a register position takes one of four letters, and any other token, an integer literal
too, is fatal. -/
def Obligations.RegisterPositionsTakeOnlyRegisters : Prop :=
  ∀ t : Token,
    (∀ r, register t = .ok r ↔
      (t = ['a'] ∧ r = .a) ∨ (t = ['b'] ∧ r = .b) ∨ (t = ['c'] ∧ r = .c) ∨ (t = ['d'] ∧ r = .d)) ∧
    ((∀ r, register t ≠ .ok r) → register t = .error (.malformedRegisterOperand t) ∧
      lineInstr ["inc".toList, t] = .error (.malformedRegisterOperand t) ∧
      lineInstr ["dec".toList, t] = .error (.malformedRegisterOperand t) ∧
      ∀ t1 v, value t1 = .ok v → lineInstr ["cpy".toList, t1, t] = .error (.malformedRegisterOperand t))

/-- 30_encoding.md R70: a recognized line with any other number of operand tokens is fatal, whatever its operands are
(decision D9). -/
def Obligations.OperandCountIsCheckedFirst : Prop :=
  ∀ (op : Opcode) (first : Token) (operands : List Token), opcodeToken first = some op →
    (lineInstr (first :: operands) = .error .operandCount ↔ operands.length ≠ operandTokens op)

/-- 60_exceptions.md R125, the order within a line (decision D12): of two bad operands the left one is reported. -/
def Obligations.LeftOperandIsReportedFirst : Prop :=
  ∀ (t1 t2 : Token) (e : LoadError), value t1 = .error e →
    lineInstr ["cpy".toList, t1, t2] = .error e ∧ lineInstr ["jnz".toList, t1, t2] = .error e

/-- 30_encoding.md R81, an inference of the spec: a printed program parses back to itself. The spacing of the printer is
the model's choice, assumption 18. -/
def Obligations.PrintedProgramsParseBack : Prop := ∀ program : List Instr, parse (print program) = .ok program

/-- 30_encoding.md R81, an inference of the spec: text and image describe the same set of programs. -/
def Obligations.TextAndImageDescribeTheSamePrograms : Prop :=
  ∀ nmax : Config.Capacity,
    (∀ (text : Text) (program : List Instr), parse text = .ok program → program.length ≤ nmax.val →
      imageWellFormed nmax (program.map encode) = true ∧
      constructImage nmax (program.map encode) = construct nmax text) ∧
    (∀ image : List InstrWord, imageWellFormed nmax image = true →
      ∃ text program, parse text = .ok program ∧ program.map encode = image ∧
        construct nmax text = constructImage nmax image)
end

