-- ==== Sys2Proof/Laws/Decode.lean ====
section
/-! SUPPORT. Laws/Decode.lean: the fields of an assembled word, and the small facts of registers, opcodes and
payloads. -/

namespace Sys2Proof

/-! ### Registers and opcodes -/

@[simp] theorem Reg.ofNumber_number (r : Reg) : Reg.ofNumber r.number = r := by cases r <;> rfl
@[simp] theorem Reg.number_ofNumber (n : BitVec 2) : (Reg.ofNumber n).number = n := by revert n; decide
@[simp] theorem Opcode.ofBits_bits (op : Opcode) : Opcode.ofBits op.bits = op := by cases op <;> rfl
@[simp] theorem Opcode.bits_ofBits (n : BitVec 2) : (Opcode.ofBits n).bits = n := by revert n; decide

/-! ### The fields of an assembled word -/

section
variable (op : BitVec 2) (xk yk : Bool) (x y : Word)

/-- An assembled word, bit by bit. -/
theorem getLsbD_assemble (i : Nat) :
    (assemble op xk yk x y).getLsbD i =
      if i < 64 then y.getLsbD i else if i < 128 then x.getLsbD (i - 64) else if i = 128 then yk
      else if i = 129 then xk else op.getLsbD (i - 130) := by
  simp only [assemble, BitVec.getLsbD_append]
  by_cases h1 : i < 64
  · simp [h1]
  by_cases h2 : i < 128
  · simp [h1, h2, show i - 64 < 64 by omega]
  by_cases h3 : i = 128
  · simp [h3]
  by_cases h4 : i = 129
  · simp [h4]
  · simp [h1, h2, h3, h4, show ¬ i - 64 < 64 by omega, show ¬ i - 64 - 64 < 1 by omega,
      show ¬ i - 64 - 64 - 1 < 1 by omega, show i - 64 - 64 - 1 - 1 = i - 130 by omega]

@[simp] theorem opField_assemble : opField (assemble op xk yk x y) = op := by
  apply BitVec.eq_of_getLsbD_eq
  intro i hi
  rw [opField, BitVec.getLsbD_extractLsb', getLsbD_assemble]
  simp [hi, show ¬ 130 + i < 64 by omega, show ¬ 130 + i < 128 by omega, show ¬ 130 + i = 128 by omega,
    show ¬ 130 + i = 129 by omega]

@[simp] theorem xkField_assemble : xkField (assemble op xk yk x y) = xk := by
  rw [xkField, getLsbD_assemble]
  simp

@[simp] theorem ykField_assemble : ykField (assemble op xk yk x y) = yk := by
  rw [ykField, getLsbD_assemble]
  simp

@[simp] theorem xField_assemble : xField (assemble op xk yk x y) = x := by
  apply BitVec.eq_of_getLsbD_eq
  intro i hi
  rw [xField, BitVec.getLsbD_extractLsb', getLsbD_assemble]
  simp [hi, show 64 + i < 128 by omega]

@[simp] theorem yField_assemble : yField (assemble op xk yk x y) = y := by
  apply BitVec.eq_of_getLsbD_eq
  intro i hi
  rw [yField, BitVec.getLsbD_extractLsb', getLsbD_assemble]
  simp [hi]

/-- A word is made of its fields. -/
theorem assemble_fields (w : InstrWord) : assemble (opField w) (xkField w) (ykField w) (xField w) (yField w) = w := by
  apply BitVec.eq_of_getLsbD_eq
  intro i hi
  rw [getLsbD_assemble]
  by_cases h1 : i < 64
  · simp [h1, yField]
  by_cases h2 : i < 128
  · simp [h1, h2, xField, show i - 64 < 64 by omega, show 64 + (i - 64) = i by omega]
  by_cases h3 : i = 128
  · simp [h3, ykField]
  by_cases h4 : i = 129
  · simp [h4, xkField]
  · simp [h1, h2, h3, h4, opField, show i - 130 < 2 by omega, show 130 + (i - 130) = i by omega]

/-- Bitwise and, field by field. -/
theorem assemble_and (op' : BitVec 2) (xk' yk' : Bool) (x' y' : Word) :
    assemble op xk yk x y &&& assemble op' xk' yk' x' y' =
      assemble (op &&& op') (xk && xk') (yk && yk') (x &&& x') (y &&& y') := by
  apply BitVec.eq_of_getLsbD_eq
  intro i _
  simp only [BitVec.getLsbD_and, getLsbD_assemble]
  split_ifs <;> simp

/-- Words are equal when their fields are. -/
theorem assemble_inj {op' : BitVec 2} {xk' yk' : Bool} {x' y' : Word} :
    assemble op xk yk x y = assemble op' xk' yk' x' y' ↔ op = op' ∧ xk = xk' ∧ yk = yk' ∧ x = x' ∧ y = y' := by
  refine ⟨fun h => ⟨?_, ?_, ?_, ?_, ?_⟩, by rintro ⟨rfl, rfl, rfl, rfl, rfl⟩; rfl⟩
  · simpa using congrArg opField h
  · simpa using congrArg xkField h
  · simpa using congrArg ykField h
  · simpa using congrArg xField h
  · simpa using congrArg yField h

/-- A row of the opcode table, said on the fields of the word: it fixes the control nibble and keeps some bits of the
payloads zero. -/
theorem fits_iff {row : TableRow} {mx my : Word} (hm : row.mask = assemble 3 true true mx my)
    (hp : row.pattern = assemble op xk yk 0 0) (w : InstrWord) :
    row.fits w = true ↔ opField w = op ∧ xkField w = xk ∧ ykField w = yk ∧ xField w &&& mx = 0 ∧ yField w &&& my = 0 := by
  have all (n : BitVec 2) : n &&& 3 = n := by revert n; decide
  conv_lhs => rw [TableRow.fits, beq_iff_eq, hm, hp, ← assemble_fields w, assemble_and, assemble_inj]
  simp only [all, Bool.and_true]

end

/-! ### Payloads of register kind -/

/-- The payload bits a register leaves zero. -/
def registerMask : Word := 0xFFFFFFFFFFFFFFFC

/-- Masking a payload's bits 63:2 tells whether it names a register. -/
theorem and_registerMask (p : Word) : p &&& registerMask = 0 ↔ p.extractLsb' 2 62 = 0#62 := by
  have mask (i : Nat) (hi : i < 64) : registerMask.getLsbD i = decide (2 ≤ i) := by
    revert i
    decide
  constructor
  · intro h
    apply BitVec.eq_of_getLsbD_eq
    intro i hi
    have hb := congrArg (fun v : Word => v.getLsbD (2 + i)) h
    simp only [BitVec.getLsbD_and, mask _ (show 2 + i < 64 by omega)] at hb
    rw [BitVec.getLsbD_extractLsb']
    simpa [hi] using hb
  · intro h
    apply BitVec.eq_of_getLsbD_eq
    intro i hi
    rw [BitVec.getLsbD_and, mask i hi]
    by_cases h2 : 2 ≤ i
    · have hb := congrArg (fun v : BitVec 62 => v.getLsbD (i - 2)) h
      simp only [BitVec.getLsbD_extractLsb', show 2 + (i - 2) = i by omega] at hb
      simpa [h2, show i - 2 < 62 by omega] using hb
    · simp [h2]

/-- A register's payload reads back as that register. -/
@[simp] theorem decodeReg_encodeReg (r : Reg) : decodeReg (encodeReg r) = .ok r := by cases r <;> decide

theorem encodeReg_and_registerMask (r : Reg) : encodeReg r &&& registerMask = 0 := by cases r <;> decide

/-- A payload that names a register is that register's payload: its bits 63:2 are zero. -/
theorem encodeReg_of_decodeReg {p : Word} {r : Reg} (h : decodeReg p = .ok r) : encodeReg r = p := by
  unfold decodeReg at h
  split at h
  · next hz =>
    simp only [Except.ok.injEq] at h
    subst h
    rw [encodeReg, Reg.number_ofNumber]
    apply BitVec.eq_of_getLsbD_eq
    intro i hi
    rw [BitVec.getLsbD_setWidth, BitVec.getLsbD_extractLsb']
    by_cases h2 : i < 2
    · simp [h2, hi]
    · have hb := congrArg (fun v : BitVec 62 => v.getLsbD (i - 2)) hz
      simp [show i - 2 < 62 by omega, show 2 + (i - 2) = i by omega] at hb
      simp [h2, hb]
  · exact absurd h (by simp)

/-- What a payload of register kind can be. -/
theorem decodeReg_cases (p : Word) : (∃ r, p = encodeReg r ∧ decodeReg p = .ok r) ∨
    (p.extractLsb' 2 62 ≠ 0#62 ∧ decodeReg p = .error .registerBits) := by
  by_cases h : p.extractLsb' 2 62 = 0#62
  · have hd : decodeReg p = .ok (Reg.ofNumber (p.extractLsb' 0 2)) := by rw [decodeReg, if_pos h]
    exact .inl ⟨_, (encodeReg_of_decodeReg hd).symm, hd⟩
  · exact .inr ⟨h, by rw [decodeReg, if_neg h]⟩

/-! ### What the decoder can answer -/

theorem decodeValue_inv {k : Bool} {p : Word} {v : Value} (h : decodeValue k p = .ok v) :
    (k = false ∧ v = .imm p) ∨ (k = true ∧ ∃ r, v = .reg r ∧ encodeReg r = p) := by
  cases k
  · simp only [decodeValue, Bool.false_eq_true, if_false, Except.ok.injEq] at h
    exact .inl ⟨rfl, h.symm⟩
  · rcases decodeReg_cases p with ⟨r, hp, hd⟩ | ⟨_, hd⟩
    · simp only [decodeValue, if_true, hd, Except.map, Except.ok.injEq] at h
      exact .inr ⟨rfl, r, h.symm, hp.symm⟩
    · simp [decodeValue, hd, Except.map] at h

theorem decodeOnlyReg_inv {xk yk : Bool} {x y : Word} {r : Reg} (h : decodeOnlyReg xk yk x y = .ok r) :
    xk = true ∧ yk = false ∧ encodeReg r = x ∧ y = 0 := by
  unfold decodeOnlyReg at h
  split at h
  · simp at h
  · next hk =>
    rcases decodeReg_cases x with ⟨q, hp, hd⟩ | ⟨_, hd⟩
    · rw [hd] at h
      simp only at h
      split at h
      · next hy =>
        simp only [Except.ok.injEq] at h
        simp only [not_or, Bool.not_eq_false, Bool.not_eq_true] at hk
        exact ⟨hk.1, hk.2, by rw [← h, hp], hy⟩
      · simp at h
    · rw [hd] at h
      simp at h

/-- Everything `decode` can answer: one of three shapes, with what it says of the word's fields. -/
theorem decode_inv {w : InstrWord} {i : Instr} (h : decode w = .ok i) :
    (∃ v dst, i = Instr.copy v dst ∧ opField w = Opcode.cpy.bits ∧ decodeValue (xkField w) (xField w) = .ok v ∧
      ykField w = true ∧ encodeReg dst = yField w) ∨
    (∃ r, (i = .incReg r ∧ opField w = Opcode.inc.bits ∨ i = .decReg r ∧ opField w = Opcode.dec.bits) ∧
      decodeOnlyReg (xkField w) (ykField w) (xField w) (yField w) = .ok r) ∨
    (∃ cond off, i = Instr.jump cond off ∧ opField w = Opcode.jnz.bits ∧
      decodeValue (xkField w) (xField w) = .ok cond ∧ decodeValue (ykField w) (yField w) = .ok off) := by
  obtain ⟨op, hop⟩ : ∃ op, Opcode.ofBits (opField w) = op := ⟨_, rfl⟩
  have hbits : opField w = op.bits := by rw [← hop, Opcode.bits_ofBits]
  unfold decode at h
  rw [hop] at h
  cases op with
  | cpy =>
    simp only at h
    split at h
    · simp at h
    · next hy =>
      cases hv : decodeValue (xkField w) (xField w) with
      | error e => simp [hv, bind, Except.bind] at h
      | ok v =>
        rcases decodeReg_cases (yField w) with ⟨dst, hp, hd⟩ | ⟨_, hd⟩
        · simp only [hv, hd, bind, Except.bind, Except.ok.injEq] at h
          exact .inl ⟨v, dst, h.symm, hbits, rfl, by simpa using hy, hp.symm⟩
        · simp [hv, hd, bind, Except.bind] at h
  | inc =>
    simp only [Except.map] at h
    split at h <;> simp only [Except.ok.injEq, reduceCtorEq] at h
    next r hr => exact .inr (.inl ⟨r, .inl ⟨h.symm, hbits⟩, hr⟩)
  | dec =>
    simp only [Except.map] at h
    split at h <;> simp only [Except.ok.injEq, reduceCtorEq] at h
    next r hr => exact .inr (.inl ⟨r, .inr ⟨h.symm, hbits⟩, hr⟩)
  | jnz =>
    simp only at h
    cases hv : decodeValue (xkField w) (xField w) with
    | error e => simp [hv, bind, Except.bind] at h
    | ok cond =>
      cases hu : decodeValue (ykField w) (yField w) with
      | error e => simp [hv, hu, bind, Except.bind] at h
      | ok off =>
        simp only [hv, hu, bind, Except.bind, Except.ok.injEq] at h
        exact .inr (.inr ⟨cond, off, h.symm, hbits, rfl, rfl⟩)

/-! ### The eight rows, on the fields of a word -/

section
variable (w : InstrWord)

theorem fits_cpyImmReg (k : Word) (dst : Reg) : (Instr.cpyImmReg k dst).row.fits w = true ↔
    opField w = 0#2 ∧ xkField w = false ∧ ykField w = true ∧ yField w &&& registerMask = 0 := by
  refine (fits_iff (mx := 0#64) (my := registerMask) 0#2 false true (by simp only [Instr.row]; decide)
    (by simp only [Instr.row]; decide) w).trans ?_
  simp

theorem fits_cpyRegReg (src dst : Reg) : (Instr.cpyRegReg src dst).row.fits w = true ↔
    opField w = 0#2 ∧ xkField w = true ∧ ykField w = true ∧ xField w &&& registerMask = 0 ∧
      yField w &&& registerMask = 0 := by
  refine (fits_iff (mx := registerMask) (my := registerMask) 0#2 true true (by simp only [Instr.row]; decide)
    (by simp only [Instr.row]; decide) w).trans ?_
  simp

theorem fits_incReg (r : Reg) : (Instr.incReg r).row.fits w = true ↔
    opField w = 1#2 ∧ xkField w = true ∧ ykField w = false ∧ xField w &&& registerMask = 0 ∧ yField w = 0 := by
  refine (fits_iff (mx := registerMask) (my := BitVec.allOnes 64) 1#2 true false (by simp only [Instr.row]; decide)
    (by simp only [Instr.row]; decide) w).trans ?_
  rw [BitVec.and_allOnes]

theorem fits_decReg (r : Reg) : (Instr.decReg r).row.fits w = true ↔
    opField w = 2#2 ∧ xkField w = true ∧ ykField w = false ∧ xField w &&& registerMask = 0 ∧ yField w = 0 := by
  refine (fits_iff (mx := registerMask) (my := BitVec.allOnes 64) 2#2 true false (by simp only [Instr.row]; decide)
    (by simp only [Instr.row]; decide) w).trans ?_
  rw [BitVec.and_allOnes]

theorem fits_jnzImmImm (cond off : Word) : (Instr.jnzImmImm cond off).row.fits w = true ↔
    opField w = 3#2 ∧ xkField w = false ∧ ykField w = false := by
  refine (fits_iff (mx := 0#64) (my := 0#64) 3#2 false false (by simp only [Instr.row]; decide)
    (by simp only [Instr.row]; decide) w).trans ?_
  simp

theorem fits_jnzImmReg (cond : Word) (off : Reg) : (Instr.jnzImmReg cond off).row.fits w = true ↔
    opField w = 3#2 ∧ xkField w = false ∧ ykField w = true ∧ yField w &&& registerMask = 0 := by
  refine (fits_iff (mx := 0#64) (my := registerMask) 3#2 false true (by simp only [Instr.row]; decide)
    (by simp only [Instr.row]; decide) w).trans ?_
  simp

theorem fits_jnzRegImm (cond : Reg) (off : Word) : (Instr.jnzRegImm cond off).row.fits w = true ↔
    opField w = 3#2 ∧ xkField w = true ∧ ykField w = false ∧ xField w &&& registerMask = 0 := by
  refine (fits_iff (mx := registerMask) (my := 0#64) 3#2 true false (by simp only [Instr.row]; decide)
    (by simp only [Instr.row]; decide) w).trans ?_
  simp

theorem fits_jnzRegReg (cond off : Reg) : (Instr.jnzRegReg cond off).row.fits w = true ↔
    opField w = 3#2 ∧ xkField w = true ∧ ykField w = true ∧ xField w &&& registerMask = 0 ∧
      yField w &&& registerMask = 0 := by
  refine (fits_iff (mx := registerMask) (my := registerMask) 3#2 true true (by simp only [Instr.row]; decide)
    (by simp only [Instr.row]; decide) w).trans ?_
  simp

end

end Sys2Proof
end

