-- ==== Sys2Proof/Laws/State.lean ====
section
/-! SUPPORT. Laws/State.lean: what each update of the state leaves in each field, once and for all. -/

namespace Sys2Proof.Machine

section
variable (s : State) (r : Reg) (v off : Word)

@[simp] theorem writeReg_pc : (writeReg s r v).pc = s.pc := by cases r <;> rfl
@[simp] theorem writeReg_prog : (writeReg s r v).prog = s.prog := by cases r <;> rfl

@[simp] theorem advance_a : (advance s).a = s.a := rfl
@[simp] theorem advance_b : (advance s).b = s.b := rfl
@[simp] theorem advance_c : (advance s).c = s.c := rfl
@[simp] theorem advance_d : (advance s).d = s.d := rfl
@[simp] theorem advance_pc : (advance s).pc = s.pc + 1 := rfl
@[simp] theorem advance_prog : (advance s).prog = s.prog := rfl

@[simp] theorem jumpBy_a : (jumpBy s off).a = s.a := rfl
@[simp] theorem jumpBy_b : (jumpBy s off).b = s.b := rfl
@[simp] theorem jumpBy_c : (jumpBy s off).c = s.c := rfl
@[simp] theorem jumpBy_d : (jumpBy s off).d = s.d := rfl
@[simp] theorem jumpBy_pc : (jumpBy s off).pc = add64 s.pc off := rfl
@[simp] theorem jumpBy_prog : (jumpBy s off).prog = s.prog := rfl

@[simp] theorem load_pc (image : List InstrWord) : (State.load image).pc = 0 := rfl
@[simp] theorem load_prog (image : List InstrWord) : (State.load image).prog = image := rfl
@[simp] theorem readReg_load (image : List InstrWord) : readReg (State.load image) r = 0 := by cases r <;> rfl

/-! ### Registers through the updates -/

@[simp] theorem readReg_advance : readReg (advance s) r = readReg s r := by cases r <;> rfl
@[simp] theorem readReg_jumpBy : readReg (jumpBy s off) r = readReg s r := by cases r <;> rfl
@[simp] theorem readReg_writeReg_same : readReg (writeReg s r v) r = v := by cases r <;> rfl

theorem readReg_writeReg_other {q : Reg} (h : q ≠ r) : readReg (writeReg s r v) q = readReg s q := by
  cases q <;> cases r <;> first | rfl | exact absurd rfl h

/-- A state is its four registers, its `pc` and its store. -/
theorem State.eq_of_fields {s t : State} (hr : ∀ r, readReg s r = readReg t r) (hpc : s.pc = t.pc)
    (hprog : s.prog = t.prog) : s = t := by
  have ha := hr .a
  have hb := hr .b
  have hc := hr .c
  have hd := hr .d
  cases s
  cases t
  simp_all [readReg]

end

end Sys2Proof.Machine
end

