-- ==== Sys2Proof/Laws/Ops.lean ====
section
/-! SUPPORT. Laws/Ops.lean: what the shared operations do: 64-bit addition, the test for zero, the Halted test, the
fetch. -/

namespace Sys2Proof.Machine

/-! ### Arithmetic -/

/-- `wrap64 z` is the signed integer of the 64 low bits of `z`. -/
theorem toInt_ofInt_eq_wrap64 (z : Int) : (BitVec.ofInt 64 z).toInt = wrap64 z := by
  rw [BitVec.toInt_ofInt, Int.bmod_def, wrap64]
  norm_num
  omega

/-- On `I64` nothing wraps. -/
theorem wrap64_of_inI64 {z : Int} (h : InI64 z) : wrap64 z = z := by
  simp only [InI64, i64Min, i64Max] at h
  unfold wrap64
  omega

theorem inI64_wrap64 (z : Int) : InI64 (wrap64 z) := by
  simp only [InI64, i64Min, i64Max, wrap64]
  omega

/-- Every word denotes a member of `I64`. -/
theorem inI64_toInt (v : Word) : InI64 v.toInt := by
  have h1 := BitVec.le_toInt (x := v)
  have h2 := BitVec.toInt_lt (x := v)
  simp only [InI64, i64Min, i64Max]
  norm_num at h1 h2
  omega

/-- Two words that denote one integer are one word. -/
theorem word_eq_of_toInt {u v : Word} (h : u.toInt = v.toInt) : u = v := BitVec.eq_of_toInt_eq h

/-- What `add64` does, in integers. -/
theorem add64_toInt (u v : Word) : (add64 u v).toInt = wrap64 (u.toInt + v.toInt) := by
  rw [add64, toInt_ofInt_eq_wrap64]
  exact wrap64_of_inI64 (inI64_wrap64 _)

/-- Under OVF = wrap, `add64` is the two's-complement sum. -/
theorem add64_eq_add (u v : Word) : add64 u v = u + v := by
  apply word_eq_of_toInt
  rw [add64_toInt, ← toInt_ofInt_eq_wrap64, BitVec.ofInt_add, BitVec.ofInt_toInt, BitVec.ofInt_toInt]

/-- `pc + 1` in integers, where it does not leave `I64`. -/
theorem toInt_add_one {v : Word} (h : v.toInt < i64Max) : (v + 1).toInt = v.toInt + 1 := by
  rw [← add64_eq_add, add64_toInt]
  have h1 := inI64_toInt v
  simp only [InI64, i64Min, i64Max] at *
  exact wrap64_of_inI64 (by simp only [InI64, i64Min, i64Max, show (1 : Word).toInt = 1 by decide]; omega)

theorem nonZero_iff (v : Word) : nonZero v = true ↔ v ≠ 0 := by
  rw [nonZero, bne_iff_ne, ne_eq, ne_eq, not_iff_not]
  exact ⟨fun h => word_eq_of_toInt h, fun h => by rw [h]; rfl⟩

/-! ### The Halted test and the fetch -/

theorem not_running_iff_halted (s : State) : ¬ Running s ↔ Halted s := by
  simp only [Running, Halted]
  omega

/-- `IFetch` is defined exactly when the machine is Running. -/
theorem ifetch_isSome_iff (prog : List InstrWord) (i : Int) :
    (∃ w, ifetch prog i = some w) ↔ 0 ≤ i ∧ i < prog.length := by
  cases i with
  | ofNat n => simp [ifetch, List.getElem?_eq_some_iff]
  | negSucc n => simp only [ifetch]; constructor <;> intro h <;> [simp at h; omega]

theorem ifetch_of_getElem {prog : List InstrWord} {i : Int} {w : InstrWord} (h0 : 0 ≤ i)
    (h : prog[i.toNat]? = some w) : ifetch prog i = some w := by
  obtain ⟨n, rfl⟩ := Int.eq_ofNat_of_zero_le h0
  simpa [ifetch] using h

theorem mem_of_ifetch {prog : List InstrWord} {i : Int} {w : InstrWord} (h : ifetch prog i = some w) : w ∈ prog := by
  cases i with
  | ofNat n => exact List.mem_of_getElem? h
  | negSucc n => simp [ifetch] at h

theorem fetchInstr_eq_none_iff (s : State) : fetchInstr s = none ↔ Halted s := by
  rw [fetchInstr, Option.map_eq_none_iff, ← not_running_iff_halted, Running, ← ifetch_isSome_iff,
    Option.eq_none_iff_forall_ne_some]
  simp

end Sys2Proof.Machine
end

