-- ==== Sys2Proof/Laws/Exec.lean ====
section
/-! SUPPORT. Laws/Exec.lean: what the meanings and the step can do, said once. -/

namespace Sys2Proof.Machine

/-! ### The shared meanings -/

@[simp] theorem copy_prog (v : Value) (dst : Reg) (s : State) : (copy v dst s).prog = s.prog := by simp [copy]
@[simp] theorem copy_pc (v : Value) (dst : Reg) (s : State) : (copy v dst s).pc = s.pc + 1 := by simp [copy]
@[simp] theorem addTo_prog (r : Reg) (k : Word) (s : State) : (addTo r k s).prog = s.prog := by simp [addTo]
@[simp] theorem addTo_pc (r : Reg) (k : Word) (s : State) : (addTo r k s).pc = s.pc + 1 := by simp [addTo]

theorem readReg_copy (v : Value) (dst q : Reg) (s : State) :
    readReg (copy v dst s) q = if q = dst then eval s v else readReg s q := by
  rw [copy, readReg_advance]
  split
  · next h => rw [h, readReg_writeReg_same]
  · next h => rw [readReg_writeReg_other _ _ _ h]

theorem readReg_addTo (r : Reg) (k : Word) (q : Reg) (s : State) :
    readReg (addTo r k s) q = if q = r then add64 (readReg s r) k else readReg s q := by
  rw [addTo, readReg_advance]
  split
  · next h => rw [h, readReg_writeReg_same]
  · next h => rw [readReg_writeReg_other _ _ _ h]

theorem jumpIfNonZero_taken {cond off : Value} {s : State} (h : eval s cond ≠ 0) :
    jumpIfNonZero cond off s = jumpBy s (eval s off) := by
  rw [jumpIfNonZero, if_pos ((nonZero_iff _).2 h)]

theorem jumpIfNonZero_notTaken {cond off : Value} {s : State} (h : eval s cond = 0) :
    jumpIfNonZero cond off s = advance s := by
  rw [jumpIfNonZero, if_neg (by rw [nonZero_iff]; exact not_not_intro h)]

@[simp] theorem jumpIfNonZero_prog (cond off : Value) (s : State) : (jumpIfNonZero cond off s).prog = s.prog := by
  unfold jumpIfNonZero
  split <;> rfl

@[simp] theorem readReg_jumpIfNonZero (cond off : Value) (s : State) (r : Reg) :
    readReg (jumpIfNonZero cond off s) r = readReg s r := by
  unfold jumpIfNonZero
  split <;> simp

/-! ### Every meaning is one of three shapes -/

/-- What `exec` can answer: always a next state, by one of the three shared meanings. -/
theorem exec_cases (i : Instr) (s : State) :
    (∃ v dst, i = Instr.copy v dst ∧ exec i s = .next (copy v dst s)) ∨
    (∃ r k, (i = .incReg r ∧ k = 1 ∨ i = .decReg r ∧ k = -1) ∧ exec i s = .next (addTo r k s)) ∨
    (∃ cond off, i = Instr.jump cond off ∧ exec i s = .next (jumpIfNonZero cond off s)) := by
  cases i with
  | cpyImmReg k dst => exact .inl ⟨.imm k, dst, rfl, rfl⟩
  | cpyRegReg src dst => exact .inl ⟨.reg src, dst, rfl, rfl⟩
  | incReg r => exact .inr (.inl ⟨r, 1, .inl ⟨rfl, rfl⟩, rfl⟩)
  | decReg r => exact .inr (.inl ⟨r, -1, .inr ⟨rfl, rfl⟩, rfl⟩)
  | jnzImmImm cond off => exact .inr (.inr ⟨.imm cond, .imm off, rfl, rfl⟩)
  | jnzImmReg cond off => exact .inr (.inr ⟨.imm cond, .reg off, rfl, rfl⟩)
  | jnzRegImm cond off => exact .inr (.inr ⟨.reg cond, .imm off, rfl, rfl⟩)
  | jnzRegReg cond off => exact .inr (.inr ⟨.reg cond, .reg off, rfl, rfl⟩)

/-! ### The step -/

/-- What `step` can do. -/
theorem step_cases (s : State) :
    (Halted s ∧ step s = .next s) ∨
    (∃ i, fetchInstr s = some (.ok i) ∧ step s = exec i s) ∨
    (∃ e, fetchInstr s = some (.error e) ∧ step s = .refused .reservedEncoding) := by
  cases h : fetchInstr s with
  | none => exact .inl ⟨(fetchInstr_eq_none_iff s).1 h, by simp only [step, h]⟩
  | some verdict =>
    cases verdict with
    | ok i => exact .inr (.inl ⟨i, rfl, by simp only [step, h]⟩)
    | error e => exact .inr (.inr ⟨e, rfl, by simp only [step, h]⟩)

end Sys2Proof.Machine
end

