-- ==== Sys2Proof/Laws/Parser.lean ====
section
/-! SUPPORT. Laws/Parser.lean: what the pieces of the parser and of the printer do. -/

namespace Sys2Proof.Machine

/-! ### Splitting -/

theorem splitBy_ne_nil (sep : Char → Bool) (text : Text) : splitBy sep text ≠ [] := by
  cases text with
  | nil => simp [splitBy]
  | cons ch rest =>
    simp only [splitBy]
    split
    · simp
    · split <;> simp

/-- A separator splits a text in two. -/
theorem splitBy_append (sep : Char → Bool) (before after : Text) {ch : Char} (h : sep ch = true) :
    splitBy sep (before ++ ch :: after) = splitBy sep before ++ splitBy sep after := by
  induction before with
  | nil => simp [splitBy, h]
  | cons x rest ih =>
    rw [List.cons_append, splitBy, splitBy, ih]
    split
    · rfl
    · cases hs : splitBy sep rest with
      | nil => exact absurd hs (splitBy_ne_nil sep rest)
      | cons piece more => rfl

/-- A text without separators is one piece. -/
theorem splitBy_of_none (sep : Char → Bool) {text : Text} (h : ∀ ch ∈ text, sep ch = false) :
    splitBy sep text = [text] := by
  induction text with
  | nil => rfl
  | cons x rest ih =>
    simp only [splitBy, h x (by simp), Bool.false_eq_true, if_false, ih (fun ch hc => h ch (by simp [hc]))]

@[simp] theorem isLineFeed_lf : isLineFeed '\n' = true := by decide
@[simp] theorem isWhitespace_space : isWhitespace ' ' = true := by decide

theorem isLineFeed_of_ne {ch : Char} (h : ch ≠ '\n') : isLineFeed ch = false := by
  rw [isLineFeed, beq_eq_false_iff_ne]
  intro hc
  apply h
  rw [← Char.ofNat_toNat ch, hc]

/-- Tokens joined by spaces are read back, where none is empty and none holds whitespace. -/
theorem tokensOf_joinTokens {tokens : List Token} (h : ∀ t ∈ tokens, t ≠ [] ∧ ∀ ch ∈ t, isWhitespace ch = false) :
    tokensOf (joinTokens tokens) = tokens := by
  induction tokens with
  | nil => rfl
  | cons t rest ih =>
    have ht := h t (by simp)
    have hr := ih (fun u hu => h u (by simp [hu]))
    cases rest with
    | nil => simp [joinTokens, tokensOf, splitBy_of_none _ ht.2, ht.1]
    | cons u more =>
      rw [joinTokens, tokensOf, splitBy_append _ _ _ isWhitespace_space, splitBy_of_none _ ht.2, List.filter_append]
      · rw [tokensOf] at hr
        simp [hr, ht.1]
      · simp

/-! ### Lines -/

/-- The lines of a text parse one after another, and the first error ends the parse. -/
theorem parseLines_append (before after : List (List Token)) :
    parseLines (before ++ after) =
      (parseLines before).bind (fun p => (parseLines after).bind (fun q => .ok (p ++ q))) := by
  induction before with
  | nil => cases h : parseLines after <;> simp [parseLines, Except.bind, h]
  | cons line rest ih =>
    rw [List.cons_append, parseLines, parseLines, ih]
    cases lineInstr line <;> cases parseLines rest <;> cases parseLines after <;>
      simp [bind, Except.bind]

/-- A line feed splits a parse in two. -/
theorem parse_append (before after : Text) :
    parse (before ++ '\n' :: after) = (parse before).bind (fun p => (parse after).bind (fun q => .ok (p ++ q))) := by
  rw [parse, linesOf, splitBy_append _ _ _ isLineFeed_lf, List.map_append, parseLines_append]
  rfl

/-- A text without line feeds is one line. -/
theorem parse_line {line : Text} (h : '\n' ∉ line) :
    parse line = (lineInstr (tokensOf line)).map Option.toList := by
  rw [parse, linesOf, splitBy_of_none _ (fun ch hc => isLineFeed_of_ne (fun e => h (e ▸ hc)))]
  cases hl : lineInstr (tokensOf line) <;> simp [parseLines, hl, bind, Except.bind, Except.map]

theorem lineInstr_discarded {line : Text} (h : Discarded line) : lineInstr (tokensOf line) = .ok none := by
  cases ht : tokensOf line with
  | nil => rfl
  | cons first rest =>
    have hf := h first rest ht
    have hn : opcodeToken first = none := by
      have e : ["cpy".toList, "inc".toList, "dec".toList, "jnz".toList] =
        [['c', 'p', 'y'], ['i', 'n', 'c'], ['d', 'e', 'c'], ['j', 'n', 'z']] := by decide
      rw [e] at hf
      simp only [List.mem_cons, List.not_mem_nil, or_false, not_or] at hf
      simp [opcodeToken, hf]
    simp [lineInstr, hn]

/-! ### Registers and digits -/

theorem registerToken_eq_some_iff (t : Token) (r : Reg) : registerToken t = some r ↔ t = printReg r := by
  unfold registerToken
  split_ifs <;> cases r <;> simp_all [printReg]

theorem register_eq_ok_iff (t : Token) (r : Reg) : register t = .ok r ↔ t = printReg r := by
  rw [← registerToken_eq_some_iff, register]
  cases registerToken t <;> simp

/-- The digit's character, by its code. -/
theorem digit_toNat (n : Fin 10) : (Char.ofNat (0x30 + n.val)).toNat = 0x30 + n.val := by
  revert n
  decide

theorem digitValue_ofNat (n : Fin 10) : digitValue (Char.ofNat (0x30 + n.val)) = some n.val := by
  revert n
  decide

theorem digitValue_eq_some {ch : Char} {n : Nat} (h : digitValue ch = some n) :
    ∃ digit : Fin 10, ch = Char.ofNat (0x30 + digit.val) ∧ digit.val = n := by
  unfold digitValue at h
  split at h
  · next hr =>
    simp only [Option.some.injEq] at h
    refine ⟨⟨ch.toNat - 0x30, by omega⟩, ?_, h⟩
    rw [show 0x30 + (ch.toNat - 0x30) = ch.toNat by omega, Char.ofNat_toNat]
  · simp at h

theorem readDigits_decimalText (acc : Nat) (digits : List (Fin 10)) :
    readDigits acc (decimalText digits) = some (digits.foldl (fun n digit => 10 * n + digit.val) acc) := by
  induction digits generalizing acc with
  | nil => rfl
  | cons digit rest ih =>
    rw [decimalText, List.map_cons, readDigits, digitValue_ofNat]
    exact ih _

theorem readDigits_eq_some {acc : Nat} {t : Token} {n : Nat} (h : readDigits acc t = some n) :
    ∃ digits, t = decimalText digits := by
  induction t generalizing acc with
  | nil => exact ⟨[], rfl⟩
  | cons ch rest ih =>
    rw [readDigits] at h
    cases hd : digitValue ch with
    | none => simp [hd] at h
    | some m =>
      rw [hd] at h
      obtain ⟨digits, rfl⟩ := ih h
      obtain ⟨digit, rfl, _⟩ := digitValue_eq_some hd
      exact ⟨digit :: digits, rfl⟩

theorem natLiteral_decimalText {digits : List (Fin 10)} (h : digits ≠ []) :
    natLiteral (decimalText digits) = some (decimalValue digits) := by
  obtain ⟨digit, rest, rfl⟩ := List.exists_cons_of_ne_nil h
  exact readDigits_decimalText 0 (digit :: rest)

theorem natLiteral_eq_some {t : Token} {n : Nat} (h : natLiteral t = some n) :
    ∃ digits, digits ≠ [] ∧ t = decimalText digits := by
  cases t with
  | nil => simp [natLiteral] at h
  | cons ch rest =>
    obtain ⟨digits, hd⟩ := readDigits_eq_some h
    exact ⟨digits, by rintro rfl; simp [decimalText] at hd, hd⟩

theorem digit_ne_minus (n : Fin 10) : Char.ofNat (0x30 + n.val) ≠ '-' := by
  revert n
  decide

/-- No decimal digits begin with a minus sign. -/
theorem decimalText_ne_minus (digits : List (Fin 10)) (rest : Token) : decimalText digits ≠ '-' :: rest := by
  intro h
  cases digits with
  | nil => simp [decimalText] at h
  | cons digit more =>
    exact digit_ne_minus digit (List.cons.inj h).1

theorem intLiteral_decimalText {digits : List (Fin 10)} (h : digits ≠ []) :
    intLiteral (decimalText digits) = some (decimalValue digits : Int) := by
  unfold intLiteral
  split
  · next rest ht => exact absurd ht (decimalText_ne_minus digits rest)
  · rw [natLiteral_decimalText h, Option.map_some]
    rfl

theorem intLiteral_minus {digits : List (Fin 10)} (h : digits ≠ []) :
    intLiteral ('-' :: decimalText digits) = some (-(decimalValue digits : Int)) := by
  rw [intLiteral, natLiteral_decimalText h, Option.map_some]
  rfl

theorem intLiteral_eq_some {t : Token} {z : Int} (h : intLiteral t = some z) :
    ∃ digits, digits ≠ [] ∧ (t = decimalText digits ∨ t = '-' :: decimalText digits) := by
  unfold intLiteral at h
  split at h
  · obtain ⟨n, hn, _⟩ := Option.map_eq_some_iff.1 h
    obtain ⟨digits, hd, rfl⟩ := natLiteral_eq_some hn
    exact ⟨digits, hd, .inr rfl⟩
  · obtain ⟨n, hn, _⟩ := Option.map_eq_some_iff.1 h
    obtain ⟨digits, hd, ht⟩ := natLiteral_eq_some hn
    exact ⟨digits, hd, .inl ht⟩

/-! ### What a bad operand raises -/

theorem value_error {t : Token} {e : LoadError} (h : value t = .error e) : e = .malformedOperand t := by
  unfold value at h
  split at h
  · simp at h
  · split at h <;> simp_all

theorem register_error {t : Token} {e : LoadError} (h : register t = .error e) : e = .malformedRegisterOperand t := by
  unfold register at h
  split at h <;> simp_all

/-- A register token is no integer literal. -/
theorem immediate_printReg (r : Reg) : immediate (printReg r) = none := by cases r <;> decide

/-! ### Printing -/

/-- Enough digits write a number down. -/
theorem decimalDigits_spec (fuel : Nat) {n : Nat} (h : n < 10 ^ (fuel + 1)) :
    ∃ digits, digits ≠ [] ∧ decimalDigits (fuel + 1) n = decimalText digits ∧ decimalValue digits = n := by
  induction fuel generalizing n with
  | zero =>
    have hn : n < 10 := by simpa using h
    exact ⟨[⟨n, hn⟩], by simp, by simp [decimalDigits, hn, decimalText, digitChar], by simp [decimalValue]⟩
  | succ fuel ih =>
    by_cases hn : n < 10
    · exact ⟨[⟨n, hn⟩], by simp, by simp [decimalDigits, hn, decimalText, digitChar], by simp [decimalValue]⟩
    · obtain ⟨digits, h1, h2, h3⟩ := ih (n := n / 10) (by rw [pow_succ] at h; omega)
      refine ⟨digits ++ [⟨n % 10, by omega⟩], by simp, ?_, ?_⟩
      · rw [decimalDigits, if_neg hn, h2]
        simp [decimalText, digitChar]
      · rw [decimalValue, List.foldl_append]
        change 10 * decimalValue digits + n % 10 = n
        omega

/-- The text of a printed immediate. -/
theorem printImmediate_spec (k : Word) : ∃ digits, digits ≠ [] ∧
    (printImmediate k = decimalText digits ∧ (decimalValue digits : Int) = k.toInt ∨
      printImmediate k = '-' :: decimalText digits ∧ -(decimalValue digits : Int) = k.toInt) := by
  have h1 := BitVec.le_toInt (x := k)
  have h2 := BitVec.toInt_lt (x := k)
  norm_num at h1 h2
  obtain ⟨digits, hd, ht, hv⟩ := decimalDigits_spec 19 (n := k.toInt.natAbs) (by norm_num; omega)
  refine ⟨digits, hd, ?_⟩
  rw [printImmediate, ht, hv]
  split
  · exact .inr ⟨rfl, by omega⟩
  · exact .inl ⟨rfl, by omega⟩

theorem digit_not_space (n : Fin 10) :
    isWhitespace (Char.ofNat (0x30 + n.val)) = false ∧ Char.ofNat (0x30 + n.val) ≠ '\n' := by
  revert n
  decide

theorem decimalText_not_space {digits : List (Fin 10)} {ch : Char} (h : ch ∈ decimalText digits) :
    isWhitespace ch = false ∧ ch ≠ '\n' := by
  obtain ⟨digit, _, rfl⟩ := List.mem_map.1 h
  exact digit_not_space digit

theorem printImmediate_isToken (k : Word) :
    printImmediate k ≠ [] ∧ ∀ ch ∈ printImmediate k, isWhitespace ch = false ∧ ch ≠ '\n' := by
  obtain ⟨digits, hd, ⟨ht, _⟩ | ⟨ht, _⟩⟩ := printImmediate_spec k <;> rw [ht]
  · exact ⟨by simp [decimalText, hd], fun ch hc => decimalText_not_space hc⟩
  · refine ⟨by simp, fun ch hc => ?_⟩
    rcases List.mem_cons.1 hc with rfl | hc
    · decide
    · exact decimalText_not_space hc

theorem printReg_isToken (r : Reg) :
    printReg r ≠ [] ∧ ∀ ch ∈ printReg r, isWhitespace ch = false ∧ ch ≠ '\n' := by
  cases r <;> simp [printReg] <;> decide

/-- A printed immediate reads back. -/
theorem immediate_printImmediate (k : Word) : immediate (printImmediate k) = some k := by
  have hk : InI64 k.toInt := by
    have h1 := BitVec.le_toInt (x := k)
    have h2 := BitVec.toInt_lt (x := k)
    simp only [InI64, i64Min, i64Max]
    norm_num at h1 h2
    omega
  obtain ⟨digits, hd, ⟨ht, hv⟩ | ⟨ht, hv⟩⟩ := printImmediate_spec k <;> rw [ht, immediate]
  · rw [intLiteral_decimalText hd, hv]
    simp only [if_pos hk, BitVec.ofInt_toInt]
  · rw [intLiteral_minus hd, hv]
    simp only [if_pos hk, BitVec.ofInt_toInt]

/-- A printed value operand reads back. -/
theorem value_printValue (v : Value) : value (printValue v) = .ok v := by
  cases v with
  | imm k => simp [value, printValue, immediate_printImmediate]
  | reg r => simp only [value, printValue, immediate_printReg, (registerToken_eq_some_iff _ r).2 rfl]

/-- A printed instruction's tokens: its opcode and one token for each operand. -/
theorem printTokens_shape (i : Instr) :
    (∃ v dst, i = Instr.copy v dst ∧ printTokens i = [['c', 'p', 'y'], printValue v, printReg dst]) ∨
    (∃ r, i = .incReg r ∧ printTokens i = [['i', 'n', 'c'], printReg r]) ∨
    (∃ r, i = .decReg r ∧ printTokens i = [['d', 'e', 'c'], printReg r]) ∨
    (∃ cond off, i = Instr.jump cond off ∧ printTokens i = [['j', 'n', 'z'], printValue cond, printValue off]) := by
  cases i with
  | cpyImmReg k dst => exact .inl ⟨.imm k, dst, rfl, rfl⟩
  | cpyRegReg src dst => exact .inl ⟨.reg src, dst, rfl, rfl⟩
  | incReg r => exact .inr (.inl ⟨r, rfl, rfl⟩)
  | decReg r => exact .inr (.inr (.inl ⟨r, rfl, rfl⟩))
  | jnzImmImm cond off => exact .inr (.inr (.inr ⟨.imm cond, .imm off, rfl, rfl⟩))
  | jnzImmReg cond off => exact .inr (.inr (.inr ⟨.imm cond, .reg off, rfl, rfl⟩))
  | jnzRegImm cond off => exact .inr (.inr (.inr ⟨.reg cond, .imm off, rfl, rfl⟩))
  | jnzRegReg cond off => exact .inr (.inr (.inr ⟨.reg cond, .reg off, rfl, rfl⟩))

end Sys2Proof.Machine
end

