-- ==== Sys2Proof/Laws/PerInstr.lean ====
section
/-! SUPPORT. Laws/PerInstr.lean: statements made for each instruction, one lemma a constructor. -/

namespace Sys2Proof.Laws

open Sys2Proof

/-- An instruction's word fits the row of spec/opcode_table.json that its constructor stands for. -/
def RowFit.Statement (i : Instr) : Prop := i.row.fits (encode i) = true

theorem RowFit.cpyImmReg (k : Word) (dst : Reg) : RowFit.Statement (.cpyImmReg k dst) := by
  simp [RowFit.Statement, fits_cpyImmReg, encode, Opcode.bits, encodeReg_and_registerMask]

theorem RowFit.cpyRegReg (src dst : Reg) : RowFit.Statement (.cpyRegReg src dst) := by
  simp [RowFit.Statement, fits_cpyRegReg, encode, Opcode.bits, encodeReg_and_registerMask]

theorem RowFit.incReg (r : Reg) : RowFit.Statement (.incReg r) := by
  simp [RowFit.Statement, fits_incReg, encode, Opcode.bits, encodeReg_and_registerMask]

theorem RowFit.decReg (r : Reg) : RowFit.Statement (.decReg r) := by
  simp [RowFit.Statement, fits_decReg, encode, Opcode.bits, encodeReg_and_registerMask]

theorem RowFit.jnzImmImm (cond off : Word) : RowFit.Statement (.jnzImmImm cond off) := by
  simp [RowFit.Statement, fits_jnzImmImm, encode, Opcode.bits]

theorem RowFit.jnzImmReg (cond : Word) (off : Reg) : RowFit.Statement (.jnzImmReg cond off) := by
  simp [RowFit.Statement, fits_jnzImmReg, encode, Opcode.bits, encodeReg_and_registerMask]

theorem RowFit.jnzRegImm (cond : Reg) (off : Word) : RowFit.Statement (.jnzRegImm cond off) := by
  simp [RowFit.Statement, fits_jnzRegImm, encode, Opcode.bits, encodeReg_and_registerMask]

theorem RowFit.jnzRegReg (cond off : Reg) : RowFit.Statement (.jnzRegReg cond off) := by
  simp [RowFit.Statement, fits_jnzRegReg, encode, Opcode.bits, encodeReg_and_registerMask]

end Sys2Proof.Laws
end

