-- ==== Sys2Proof/Laws/Store.lean ====
section
/-! SUPPORT. Laws/Store.lean: no operation of the machine writes the instruction store, so each keeps its form; the
reset state has it. -/

namespace Sys2Proof.Machine

theorem storeInv_of_prog {s t : State} (h : t.prog = s.prog) (inv : StoreInv s) : StoreInv t := by
  rw [StoreInv, h]
  exact inv

theorem writeReg_keeps_store (s : State) (r : Reg) (v : Word) (inv : StoreInv s) : StoreInv (writeReg s r v) :=
  storeInv_of_prog (writeReg_prog s r v) inv

theorem advance_keeps_store (s : State) (inv : StoreInv s) : StoreInv (advance s) := inv

theorem jumpBy_keeps_store (s : State) (off : Word) (inv : StoreInv s) : StoreInv (jumpBy s off) := inv

theorem reset_has_store : StoreInv State.reset := by decide

/-- What a well-formed store is. -/
theorem imageWellFormed_iff (nmax : Config.Capacity) (image : List InstrWord) :
    imageWellFormed nmax image = true ↔ image.length ≤ nmax.val ∧ ∀ w ∈ image, legalWord w = true := by
  simp [imageWellFormed]

/-- A store within any capacity is within the largest. -/
theorem imageWellFormed_largest {nmax : Config.Capacity} {image : List InstrWord}
    (h : imageWellFormed nmax image = true) : imageWellFormed Config.largestCapacity image = true := by
  rw [imageWellFormed_iff] at h ⊢
  exact ⟨le_trans h.1 (Nat.le_of_lt_succ nmax.isLt), h.2⟩

end Sys2Proof.Machine
end

