-- ==== Sys2Proof/Tests/Slice0.lean ====
section
/-! SUPPORT. Tests/Slice0.lean: the spec's own vectors (spec/95_test_vectors.md, named V-… and S… there) run on the model,
the smoke tests of the well-formedness checks, and a witness for the hypotheses of each obligation. Expected results are
the spec's. -/

namespace Sys2Proof.Tests

open Sys2Proof Sys2Proof.Machine

/-- A state of a program whose slots all hold `w`. -/
def mk (a b c d pc : Word) (n : Nat) (w : InstrWord) : State := ⟨a, b, c, d, pc, List.replicate n w⟩

/-- The registers and `pc` a step leaves, none where it stops. -/
def after (o : Host.Outcome State Fault Refusal) : Option (Word × Word × Word × Word × Word) :=
  match o with
  | .next s => some (s.a, s.b, s.c, s.d, s.pc)
  | .fault _ => none
  | .refused _ => none

/-! ### Decoding: V-B1 to V-B26, and the encoder on the same words -/

theorem test_decode_cpy : decode 0x100000000000000290000000000000000 = .ok (.cpyImmReg 41 .a) ∧
    decode 0x300000000000000010000000000000002 = .ok (.cpyRegReg .b .c) ∧
    decode 0x180000000000000000000000000000003 = .ok (.cpyImmReg (-9223372036854775808) .d) := by decide

theorem test_decode_inc_dec : decode 0x600000000000000030000000000000000 = .ok (.incReg .d) ∧
    decode 0xA00000000000000020000000000000000 = .ok (.decReg .c) := by decide

theorem test_decode_jnz : decode 0xCFFFFFFFFFFFFFFFF0000000000000005 = .ok (.jnzImmImm (-1) 5) ∧
    decode 0xD00000000000000010000000000000003 = .ok (.jnzImmReg 1 .d) ∧
    decode 0xE0000000000000002FFFFFFFFFFFFFFFE = .ok (.jnzRegImm .c (-2)) ∧
    decode 0xF00000000000000030000000000000003 = .ok (.jnzRegReg .d .d) := by decide

/-- V-B9 to V-B16: the eight reserved control nibbles. -/
theorem test_reserved_nibbles :
    [0x0, 0x2, 0x4, 0x5, 0x7, 0x8, 0x9, 0xB].all
      (fun n => decode (BitVec.ofNat 132 (n * 16 ^ 32)) == .error .controlNibble) = true := by decide

/-- V-B17, V-B18, V-B20 to V-B24, V-B26: register payloads with upper bits set. -/
theorem test_reserved_payloads :
    [0x100000000000000000000000000000004, 0x300000000000000040000000000000000, 0x600000000000000100000000000000000,
      0xA80000000000000000000000000000000, 0xF00000000000000030000000000000010, 0xEFFFFFFFFFFFFFFFF0000000000000000,
      0xD00000000000000000000000000000004, 0x1FFFFFFFFFFFFFFFFFFFFFFFFFFFFFFFF].all
      (fun w => decode w == .error .registerBits) = true := by decide

/-- V-B19: `inc` with a non-zero unused `y`. -/
theorem test_reserved_unused : decode 0x600000000000000010000000000000001 = .error .unusedPayload := by decide

theorem test_encode : encode (.cpyImmReg 41 .a) = 0x100000000000000290000000000000000 ∧
    encode (.cpyRegReg .b .c) = 0x300000000000000010000000000000002 ∧
    encode (.incReg .d) = 0x600000000000000030000000000000000 ∧
    encode (.decReg .c) = 0xA00000000000000020000000000000000 ∧
    encode (.jnzImmImm (-1) 5) = 0xCFFFFFFFFFFFFFFFF0000000000000005 ∧
    encode (.jnzImmReg 1 .d) = 0xD00000000000000010000000000000003 ∧
    encode (.jnzRegImm .c (-2)) = 0xE0000000000000002FFFFFFFFFFFFFFFE ∧
    encode (.jnzRegReg .d .d) = 0xF00000000000000030000000000000003 := by decide

/-! ### Well-formedness: a term each check refuses -/

/-- The check of a word: one ill-formed word for each case of 30_encoding.md R79, and one legal word. -/
theorem test_legalWord : legalWord 0x000000000000000000000000000000000 = false ∧
    legalWord 0x300000000000000040000000000000000 = false ∧ legalWord 0x600000000000000010000000000000001 = false ∧
    legalWord 0x600000000000000000000000000000000 = true := by decide

/-- The checks of an image: a reserved word among legal ones, and a program longer than the capacity. -/
theorem test_imageWellFormed :
    imageWellFormed 2 [0x600000000000000000000000000000000, 0x000000000000000000000000000000000] = false ∧
    imageWellFormed 1 [0x600000000000000000000000000000000, 0x600000000000000000000000000000000] = false ∧
    imageWellFormed 2 [0x600000000000000000000000000000000, 0x600000000000000000000000000000000] = true := by decide

/-! ### One step (part 3 of the vectors) -/

/-- V-C4. -/
theorem test_cpyImmReg : after (step (mk 1 2 3 4 0 1 0x180000000000000000000000000000003)) =
    some (1, 2, 3, -9223372036854775808, 1) := by decide

/-- V-C2: the source register keeps its value. -/
theorem test_cpyRegReg : after (step (mk 0 5 0 0 3 6 0x300000000000000010000000000000000)) =
    some (5, 5, 0, 0, 4) := by decide

/-- V-C3: source and destination the same register. -/
theorem test_cpyRegReg_same : after (step (mk 9 0 0 0 0 2 0x300000000000000000000000000000000)) =
    some (9, 0, 0, 0, 1) := by decide

/-- V-I2: crossing zero. -/
theorem test_incReg : after (step (mk 0 0 0 (-1) 0 1 0x600000000000000030000000000000000)) =
    some (0, 0, 0, 0, 1) := by decide

/-- V-I4: the overflow, decision D4. -/
theorem test_incReg_wraps : after (step (mk 0 9223372036854775807 0 0 1 2 0x600000000000000010000000000000000)) =
    some (0, -9223372036854775808, 0, 0, 2) := by decide

/-- V-D3: crossing zero. -/
theorem test_decReg : after (step (mk 0 0 0 0 0 1 0xA00000000000000020000000000000000)) =
    some (0, 0, -1, 0, 1) := by decide

/-- V-D5: the overflow, decision D4. -/
theorem test_decReg_wraps :
    after (step (mk (-9223372036854775808) 0 0 0 0 2 0xA00000000000000000000000000000000)) =
    some (9223372036854775807, 0, 0, 0, 1) := by decide

/-- V-J2 (S3): a zero condition never branches. -/
theorem test_jnzImmImm_notTaken : after (step (mk 0 0 0 0 0 1 0xC00000000000000000000000000000005)) =
    some (0, 0, 0, 0, 1) := by decide

/-- V-J9 (S6, conflict C1): backwards out of the program. -/
theorem test_jnzImmImm_backwards : after (step (mk 0 0 0 0 0 1 0xC0000000000000001FFFFFFFFFFFFFFFF)) =
    some (0, 0, 0, 0, -1) := by decide

/-- V-J13: a register offset of 0 is a spin. -/
theorem test_jnzImmReg : after (step (mk 0 0 0 0 1 4 0xD00000000000000010000000000000001)) =
    some (0, 0, 0, 0, 1) := by decide

/-- V-J4: the offset replaces the + 1. -/
theorem test_jnzRegImm : after (step (mk 1 3 3 0 4 7 0xE0000000000000002FFFFFFFFFFFFFFFE)) =
    some (1, 3, 3, 0, 2) := by decide

/-- V-J15: the sum leaves `I64`, decision D4. -/
theorem test_jnzRegImm_wraps : after (step (mk 0 1 0 0 1 3 0xE00000000000000017FFFFFFFFFFFFFFF)) =
    some (0, 1, 0, 0, -9223372036854775808) := by decide

/-- V-J18: the most negative condition is not zero. -/
theorem test_jnzRegReg : after (step (mk (-9223372036854775808) 2 0 0 2 5 0xF00000000000000000000000000000001)) =
    some (-9223372036854775808, 2, 0, 0, 4) := by decide

/-- V-J11: one register as condition and offset. -/
theorem test_jnzRegReg_same : after (step (mk 0 0 0 (-1) 3 4 0xF00000000000000030000000000000003)) =
    some (0, 0, 0, -1, 2) := by decide

/-- A Halted engine: Step performs nothing (70_reset_and_hazards.md R156). -/
theorem test_step_halted : step (mk 7 9 0 0 3 3 0x600000000000000010000000000000000) =
    .next (mk 7 9 0 0 3 3 0x600000000000000010000000000000000) := by rfl

/-- A reserved word in the store: the model's refusal, assumption 7. -/
theorem test_step_reserved : step (mk 0 0 0 0 0 1 0) = .refused .reservedEncoding := by rfl

/-! ### The host's numbering -/

theorem test_decodeTableWord : decodeTableWord 136 0x600000000000000030000000000000000 = some (.incReg .d) ∧
    decodeTableWord 136 0x000000000000000000000000000000000 = none ∧
    decodeTableWord 136 0x1600000000000000030000000000000000 = none := by decide

theorem test_withFetchWord :
    after (step (State.reset.withFetchWord 136 0x100000000000000290000000000000000)) = some (41, 0, 0, 0, 1) ∧
    after (step ((mk 0 5 0 0 3 6 0).withFetchWord 136 0x300000000000000010000000000000000)) = some (5, 5, 0, 0, 4) := by
  decide

/-! ### eval, add64 (part 2 of the vectors) -/

/-- V-E2, V-E4. -/
theorem test_eval : eval (mk 1 2 3 4 0 0 0) (.imm (-5)) = -5 ∧ eval (mk 1 2 3 4 0 0 0) (.reg .d) = 4 := by decide

/-- V-A4 to V-A8, V-A10. -/
theorem test_add64 : add64 9223372036854775806 1 = 9223372036854775807 ∧
    add64 9223372036854775807 1 = -9223372036854775808 ∧ add64 (-9223372036854775808) (-1) = 9223372036854775807 ∧
    add64 9223372036854775807 9223372036854775807 = -2 ∧ add64 (-9223372036854775808) (-9223372036854775808) = 0 ∧
    add64 5 (-7) = -2 := by decide

/-! ### Text (part 4 of the vectors) -/

/-- V-T7, V-T8: whitespace and line ends. -/
theorem test_parse_whitespace : parse "  cpy   41 \t a  ".toList = .ok [.cpyImmReg 41 .a] ∧
    parse "cpy 1 a\r\ninc a\r\n".toList = .ok [.cpyImmReg 1 .a, .incReg .a] := by decide

/-- V-T3 to V-T6: one line of each opcode. -/
theorem test_parse_forms :
    parse "inc d\ndec c\njnz a -2\njnz 1 d\ncpy b c".toList =
      .ok [.incReg .d, .decReg .c, .jnzRegImm .a (-2), .jnzImmReg 1 .d, .cpyRegReg .b .c] := by decide

/-- V-T9 to V-T15: discarded lines. -/
theorem test_parse_discarded : parse [] = .ok [] ∧ parse "\n\n  \n".toList = .ok [] ∧
    parse "# set up\ncpy 2 a\n; done".toList = .ok [.cpyImmReg 2 .a] ∧ parse "CPY 1 a".toList = .ok [] ∧
    parse "tgl xx yy zz".toList = .ok [] := by decide

/-- V-T16 to V-T19: literals. -/
theorem test_parse_literals :
    parse "cpy -0 a\ncpy 007 a\ncpy -9223372036854775808 a\ncpy 9223372036854775807 a".toList =
      .ok [.cpyImmReg 0 .a, .cpyImmReg 7 .a, .cpyImmReg (-9223372036854775808) .a,
        .cpyImmReg 9223372036854775807 .a] := by decide

/-- V-T20 to V-T27: malformed operands. -/
theorem test_parse_malformedOperand :
    ["xx".toList, "e".toList, "A".toList, "+5".toList, "0x10".toList, "-".toList, "9223372036854775808".toList].all
      (fun t => parse ("cpy ".toList ++ t ++ " a".toList) == .error (.malformedOperand t)) = true ∧
    parse "jnz a zz".toList = .error (.malformedOperand "zz".toList) := by decide

/-- V-T28 to V-T32: malformed register operands. -/
theorem test_parse_malformedRegisterOperand :
    parse "cpy 1 2".toList = .error (.malformedRegisterOperand "2".toList) ∧
    parse "inc 5".toList = .error (.malformedRegisterOperand "5".toList) ∧
    parse "dec -a".toList = .error (.malformedRegisterOperand "-a".toList) ∧
    parse "cpy 1 ab".toList = .error (.malformedRegisterOperand "ab".toList) := by decide

/-- V-T33 to V-T38: the operand count, checked before the operands. -/
theorem test_parse_operandCount :
    ["cpy 1", "inc", "inc a b", "jnz a", "cpy 1 a extra", "cpy xx"].all
      (fun t => parse t.toList == .error .operandCount) = true := by decide

/-- V-T39 to V-T41: the order of errors. -/
theorem test_parse_order : parse "cpy xx 2".toList = .error (.malformedOperand "xx".toList) ∧
    parse "inc a\ncpy xx a\ninc 5".toList = .error (.malformedOperand "xx".toList) ∧
    parse "nop\ncpy xx a".toList = .error (.malformedOperand "xx".toList) := by decide

/-! ### The host interface -/

/-- The construction of S8's lines, and the image of the end of part 5, which is refused at its second word. -/
theorem test_construct :
    construct 3 "cpy 41 a\ninc a\njnz a 2".toList = .ok (State.load [0x100000000000000290000000000000000,
      0x600000000000000000000000000000000, 0xE00000000000000000000000000000002]) ∧
    construct 2 "cpy 41 a\ninc a\njnz a 2".toList = .error .exceedsCapacity ∧
    constructImage 3 [0x600000000000000000000000000000000, 0x000000000000000000000000000000000] =
      .error (.reservedEncoding 1) := by decide

/-- S5: a seed goes through a run (WriteRegister, Run, ReadRegister). -/
theorem test_seeded_run : Call (.writeRegister .a 7) (State.load [0x600000000000000010000000000000000]) .nothing
      (mk 7 0 0 0 0 1 0x600000000000000010000000000000000) ∧
    Call .run (mk 7 0 0 0 0 1 0x600000000000000010000000000000000) .nothing
      (mk 7 1 0 0 1 1 0x600000000000000010000000000000000) ∧
    Call (.readRegister .a) (mk 7 1 0 0 1 1 0x600000000000000010000000000000000) (.value 7)
      (mk 7 1 0 0 1 1 0x600000000000000010000000000000000) :=
  ⟨⟨rfl, rfl⟩, ⟨rfl, .step (by decide) rfl (.halted (by decide))⟩, ⟨rfl, rfl⟩⟩

/-- P8, operations 8, 10, 11: ReadPC, WriteRegister and Step on a Halted engine. -/
theorem test_halted_calls :
    Call .readPC (mk 7 9 0 0 3 3 0x600000000000000010000000000000000) (.value 3)
      (mk 7 9 0 0 3 3 0x600000000000000010000000000000000) ∧
    Call (.writeRegister .b (-1)) (mk 7 9 0 0 3 3 0x600000000000000010000000000000000) .nothing
      (mk 7 (-1) 0 0 3 3 0x600000000000000010000000000000000) ∧
    Call .step (mk 7 (-1) 0 0 3 3 0x600000000000000010000000000000000) (.status .halted)
      (mk 7 (-1) 0 0 3 3 0x600000000000000010000000000000000) :=
  ⟨⟨rfl, rfl⟩, ⟨rfl, rfl⟩, ⟨rfl, by decide⟩⟩

/-! ### Witnesses: states and operands that meet the hypotheses of the obligations -/

/-- CopyWritesTheEvaluatedSource, IncrementAddsOne, DecrementSubtractsOne, JumpReplacesTheIncrement: tokens of both
kinds, at a boundary literal. -/
theorem witness_operand_tokens :
    value "-9223372036854775808".toList = .ok (.imm (-9223372036854775808)) ∧ value "c".toList = .ok (.reg .c) ∧
    register "d".toList = .ok .d := by decide

/-- IncrementAddsOne and DecrementSubtractsOne: both cases of each, at the boundary. -/
theorem witness_range_ends :
    (readReg (mk 9223372036854775806 9223372036854775807 (-9223372036854775807) (-9223372036854775808) 0 0 0) .a).toInt
      ≠ i64Max ∧
    (readReg (mk 9223372036854775806 9223372036854775807 (-9223372036854775807) (-9223372036854775808) 0 0 0) .b).toInt
      = i64Max ∧
    (readReg (mk 9223372036854775806 9223372036854775807 (-9223372036854775807) (-9223372036854775808) 0 0 0) .c).toInt
      ≠ i64Min ∧
    (readReg (mk 9223372036854775806 9223372036854775807 (-9223372036854775807) (-9223372036854775808) 0 0 0) .d).toInt
      = i64Min := by decide

/-- JumpReplacesTheIncrement: each clause of `JumpEffect`, where the clauses meet. -/
theorem witness_jump_clauses :
    (0 : Word).toInt = 0 ∧ (-1 : Word).toInt ≠ 0 ∧
    InI64 ((mk 0 0 0 0 1 3 0).pc.toInt + (9223372036854775806 : Word).toInt) ∧
    i64Max < (mk 0 0 0 0 1 3 0).pc.toInt + (9223372036854775807 : Word).toInt ∧
    (mk 0 0 0 0 (-1) 3 0).pc.toInt + (-9223372036854775808 : Word).toInt < i64Min := by decide

/-- OnlyCopyWritesAnUnrelatedValue: an `inc` into `b`, a `dec` into `b`, and a `cpy` into another register. -/
theorem witness_not_copy_into (v : Value) : (Instr.incReg .b ≠ Instr.copy v .b ∧ Instr.decReg .b ≠ Instr.copy v .b ∧
      Instr.cpyImmReg 1 .a ≠ Instr.copy v .b) ∧
    exec (.incReg .b) (mk 0 1 0 0 0 1 0) = .next (mk 0 2 0 0 1 1 0) ∧
    exec (.decReg .b) (mk 0 1 0 0 0 1 0) = .next (mk 0 0 0 0 1 1 0) ∧
    exec (.cpyImmReg 1 .a) (mk 0 1 0 0 0 1 0) = .next (mk 1 1 0 0 1 1 0) := by
  cases v <;> exact ⟨⟨by simp [Instr.copy], by simp [Instr.copy], by simp [Instr.copy]⟩, rfl, rfl, rfl⟩

/-- RegistersDoNotLearnThePc: one instruction at two values of `pc`. -/
theorem witness_two_pcs : exec (.incReg .a) (mk 0 0 0 0 0 1 0) = .next (mk 1 0 0 0 1 1 0) ∧
    exec (.incReg .a) { mk 0 0 0 0 0 1 0 with pc := 5 } = .next (mk 1 0 0 0 6 1 0) := ⟨rfl, rfl⟩

/-- OnlyTakenJumpsLeaveTheNextSlot: a taken jump by 3. -/
theorem witness_taken_jump : exec (.jnzImmImm 7 3) (mk 0 0 0 0 0 4 0) = .next (mk 0 0 0 0 3 4 0) ∧
    (mk 0 0 0 0 3 4 0).pc ≠ (mk 0 0 0 0 0 4 0).pc + 1 := ⟨rfl, by decide⟩

/-- SumWrapsIntoTheSignedRange: a sum in range, the wrapped value of one out of range, and a condition that is not
zero. -/
theorem witness_sums : InI64 ((41 : Word).toInt + (1 : Word).toInt) ∧
    (InI64 (-9223372036854775808) ∧
      (-9223372036854775808 : Int) % 2 ^ 64 = ((9223372036854775807 : Word).toInt + (1 : Word).toInt) % 2 ^ 64) ∧
    (eval (mk 0 0 (-1) 0 0 0 0) (.reg .c)).toInt ≠ 0 := by decide

/-- HaltingDoesNotDependOnThePolicy: the last slot of the longest program. -/
theorem witness_policy : 0 ≤ (9223372036854775806 : Word).toInt ∧
    (9223372036854775806 : Word).toInt < (9223372036854775807 : Nat) ∧ ((9223372036854775807 : Nat) : Int) ≤ i64Max := by
  decide

/-- StepRunsTheDecodedInstruction: the last slot of a program. -/
theorem witness_fetched : 0 ≤ (mk 0 5 0 0 5 6 0x300000000000000010000000000000000).pc.toInt ∧
    (mk 0 5 0 0 5 6 0x300000000000000010000000000000000).prog[
        (mk 0 5 0 0 5 6 0x300000000000000010000000000000000).pc.toInt.toNat]? =
      some 0x300000000000000010000000000000000 ∧
    decode 0x300000000000000010000000000000000 = .ok (.cpyRegReg .b .a) := by decide

/-- FetchIsDefinedInsideTheProgram: the last slot, and the two indices just outside. -/
theorem witness_fetch_ends : (∃ h : 1 < (mk 0 0 0 0 0 2 0).prog.length, (mk 0 0 0 0 0 2 0).prog[1] = 0) ∧
    ifetch (mk 0 0 0 0 0 2 0).prog 2 = none ∧ ifetch (mk 0 0 0 0 0 2 0).prog (-1) = none := by decide

/-- ProgramsHaltInOneOfThreeWays, NextSlotNeverOverflows, RunningEngineHasOneSuccessor, EveryRunEndsOnceOrNever,
RunReturnsExactlyWhenHalted: each way to halt, from a Running state of a well-formed store. -/
theorem witness_three_ways :
    (StoreInv (mk 0 0 0 0 1 2 0x600000000000000000000000000000000) ∧
      Running (mk 0 0 0 0 1 2 0x600000000000000000000000000000000) ∧
      step (mk 0 0 0 0 1 2 0x600000000000000000000000000000000) =
        .next (mk 1 0 0 0 2 2 0x600000000000000000000000000000000) ∧
      Halted (mk 1 0 0 0 2 2 0x600000000000000000000000000000000)) ∧
    (StoreInv (mk 0 0 0 0 0 3 0xCFFFFFFFFFFFFFFFF0000000000000064) ∧
      Running (mk 0 0 0 0 0 3 0xCFFFFFFFFFFFFFFFF0000000000000064) ∧
      step (mk 0 0 0 0 0 3 0xCFFFFFFFFFFFFFFFF0000000000000064) =
        .next (mk 0 0 0 0 100 3 0xCFFFFFFFFFFFFFFFF0000000000000064) ∧
      Halted (mk 0 0 0 0 100 3 0xCFFFFFFFFFFFFFFFF0000000000000064)) ∧
    (StoreInv (mk 0 0 0 0 0 1 0xC0000000000000001FFFFFFFFFFFFFFFF) ∧
      Running (mk 0 0 0 0 0 1 0xC0000000000000001FFFFFFFFFFFFFFFF) ∧
      step (mk 0 0 0 0 0 1 0xC0000000000000001FFFFFFFFFFFFFFFF) =
        .next (mk 0 0 0 0 (-1) 1 0xC0000000000000001FFFFFFFFFFFFFFFF) ∧
      Halted (mk 0 0 0 0 (-1) 1 0xC0000000000000001FFFFFFFFFFFFFFFF)) :=
  ⟨⟨by decide, by decide, rfl, by decide⟩, ⟨by decide, by decide, rfl, by decide⟩,
    ⟨by decide, by decide, rfl, by decide⟩⟩

/-- StepRefusesOnlyReservedWords: a Running state with a reserved word in slot `pc`. -/
theorem witness_reserved_slot : ifetch (mk 0 0 0 0 0 1 0).prog (mk 0 0 0 0 0 1 0).pc.toInt = some 0 ∧
    legalWord 0 = false := by decide

/-- HaltedIsAbsorbing, HostReadsBackWhatItWrites, RunReturnsExactlyWhenHalted, NoOperationChangesTheProgram: every host
operation on a Halted engine, and a Run and a Step of a Running one. -/
theorem witness_calls :
    Halted (mk 7 9 0 0 3 3 0) ∧ Call (.readRegister .b) (mk 7 9 0 0 3 3 0) (.value 9) (mk 7 9 0 0 3 3 0) ∧
    Call (.writeRegister .b 1) (mk 7 9 0 0 3 3 0) .nothing (mk 7 1 0 0 3 3 0) ∧
    Call .run (mk 7 9 0 0 3 3 0) .nothing (mk 7 9 0 0 3 3 0) ∧
    Call .step (mk 7 9 0 0 3 3 0) (.status .halted) (mk 7 9 0 0 3 3 0) ∧
    Call .readPC (mk 7 9 0 0 3 3 0) (.value 3) (mk 7 9 0 0 3 3 0) ∧
    Call .step (mk 0 0 0 0 0 2 0x600000000000000000000000000000000) (.status .running)
      (mk 1 0 0 0 1 2 0x600000000000000000000000000000000) ∧
    Call .run (mk 0 0 0 0 1 2 0x600000000000000000000000000000000) .nothing
      (mk 1 0 0 0 2 2 0x600000000000000000000000000000000) :=
  ⟨by decide, ⟨rfl, rfl⟩, ⟨rfl, rfl⟩, ⟨rfl, .halted (by decide)⟩, ⟨rfl, by decide⟩, ⟨rfl, rfl⟩, ⟨rfl, by decide⟩,
    ⟨rfl, .step (by decide) rfl (.halted (by decide))⟩⟩

/-- TakenJumpByZeroNeverEnds: `jnz 1 0` alone (V-J10), and an offset register that holds 0 (V-J13). -/
theorem witness_spin :
    (fetchInstr (mk 0 0 0 0 0 1 0xC00000000000000010000000000000000) = some (.ok (Instr.jump (.imm 1) (.imm 0))) ∧
      (eval (mk 0 0 0 0 0 1 0xC00000000000000010000000000000000) (.imm 1)).toInt ≠ 0 ∧
      (eval (mk 0 0 0 0 0 1 0xC00000000000000010000000000000000) (.imm 0)).toInt = 0) ∧
    (fetchInstr (mk 0 0 0 0 1 4 0xD00000000000000010000000000000001) = some (.ok (Instr.jump (.imm 1) (.reg .b))) ∧
      (eval (mk 0 0 0 0 1 4 0xD00000000000000010000000000000001) (.reg .b)).toInt = 0) := by decide

/-- ConstructionIsTheReset, TextAndImageDescribeTheSamePrograms: an error, an empty program and one of one slot, at the
capacity. -/
theorem witness_parses : parse "cpy xx a".toList = .error (.malformedOperand "xx".toList) ∧ parse [] = .ok [] ∧
    ([] : List Instr).length ≤ (0 : Config.Capacity).val ∧ parse "inc a".toList = .ok [.incReg .a] ∧
    [Instr.incReg .a].length ≤ (1 : Config.Capacity).val ∧
    imageWellFormed 1 [0x600000000000000000000000000000000] = true := by decide

/-- EnginesMeetTheStoreInvariant, ExecutionRaisesNothing, ReservedWordsAreTheThreeCases: an engine from text, one from
an image, and one a host has written to. -/
theorem witness_engines : Engine 1 (State.load [0x600000000000000000000000000000000]) ∧
    Engine 1 (State.load [0xC00000000000000010000000000000000]) ∧
    Engine 1 (mk 7 0 0 0 0 1 0x600000000000000000000000000000000) ∧
    0x600000000000000000000000000000000 ∈ (State.load [0x600000000000000000000000000000000]).prog :=
  ⟨.fromText (text := "inc a".toList) (by decide),
    .fromImage (image := [0xC00000000000000010000000000000000]) (by decide),
    .after (s := State.load [0x600000000000000000000000000000000]) (op := .writeRegister .a 7)
      (.fromText (text := "inc a".toList) (by decide)) ⟨rfl, rfl⟩, by decide⟩

/-- LegalWordsAreTheTableRows: a word that fits a row, and whose decoding is an instruction. -/
theorem witness_row : (Instr.row (.incReg .a)) ∈ opcodeRows ∧
    (Instr.row (.incReg .a)).fits 0x600000000000000030000000000000000 = true ∧
    decode 0x600000000000000030000000000000000 = .ok (.incReg .d) := by decide

/-- ReservedWordsAreTheThreeCases, ImagesLoadOrNameTheirFirstReservedWord: an image at the capacity with its second word
reserved, and one without. -/
theorem witness_images :
    ([0x600000000000000000000000000000000, 0, 0] : List InstrWord).length ≤ (3 : Config.Capacity).val ∧
    (∀ u ∈ ([0x600000000000000000000000000000000] : List InstrWord), legalWord u = true) ∧ legalWord 0 = false ∧
    decode 0 = .error .controlNibble :=
  ⟨by decide, fun u hu => by rw [List.mem_singleton.1 hu]; decide, by decide, by decide⟩

/-- DiscardedLinesTakeNoSlot: a line with an unknown first token, and one of whitespace only. -/
theorem witness_discarded : '\n' ∉ "nop a".toList ∧ Discarded "nop a".toList ∧ '\n' ∉ " \t ".toList ∧
    Discarded " \t ".toList := by
  refine ⟨by decide, fun first rest h => ?_, by decide, fun first rest h => ?_⟩
  · rw [show tokensOf "nop a".toList = [['n', 'o', 'p'], ['a']] by decide] at h
    rw [← (List.cons.inj h).1]
    decide
  · rw [show tokensOf " \t ".toList = [] by decide] at h
    cases h

/-- LinesParseInOrder: a text that parses, and one that does not. -/
theorem witness_lines : parse "inc a\ndec b".toList = .ok [.incReg .a, .decReg .b] ∧ parse "jnz 1 -1".toList =
    .ok [.jnzImmImm 1 (-1)] ∧ parse "inc 5".toList = .error (.malformedRegisterOperand ['5']) := by decide

/-- ValueTokensResolveInOrder, LeftOperandIsReportedFirst: a literal, a register, and a token that is neither. -/
theorem witness_value_tokens : immediate "-1".toList = some (-1) ∧
    (immediate "d".toList = none ∧ register "d".toList = .ok .d) ∧
    (immediate "xx".toList = none ∧ ∀ r, register "xx".toList ≠ .ok r) ∧
    value "xx".toList = .error (.malformedOperand "xx".toList) := by
  refine ⟨by decide, by decide, ⟨by decide, fun r => ?_⟩, by decide⟩
  cases r <;> decide

/-- The digits of 2^63, one above `i64Max`. -/
def twoTo63 : List (Fin 10) := [9, 2, 2, 3, 3, 7, 2, 0, 3, 6, 8, 5, 4, 7, 7, 5, 8, 0, 8]

/-- IntegerLiteralsAreSignedDecimals: the same digits with and without a `-`, in `I64` and just outside. -/
theorem witness_literals : twoTo63 ≠ [] ∧ "-9223372036854775808".toList = '-' :: decimalText twoTo63 ∧
    i64Min = -(decimalValue twoTo63 : Int) ∧ InI64 i64Min ∧ "9223372036854775808".toList = decimalText twoTo63 ∧
    ¬ InI64 (decimalValue twoTo63 : Int) := by decide

/-- IntegerLiteralsAreSignedDecimals: a token of no such shape. -/
theorem witness_no_literal (digits : List (Fin 10)) (h : digits ≠ []) :
    ['-'] ≠ decimalText digits ∧ ['-'] ≠ '-' :: decimalText digits :=
  ⟨fun e => decimalText_ne_minus digits [] e.symm, fun e => h (List.map_eq_nil_iff.1 (List.cons.inj e).2.symm)⟩

/-- RegisterPositionsTakeOnlyRegisters: a token that is no register; `witness_operand_tokens` gives a source that
resolves. -/
theorem witness_no_register : ∀ r, register "5".toList ≠ .ok r := by
  intro r
  cases r <;> decide

/-- OperandCountIsCheckedFirst: a recognized line with one operand too many, and one with the right number. -/
theorem witness_operand_count : opcodeToken "inc".toList = some .inc ∧
    ["a".toList, "b".toList].length ≠ operandTokens .inc ∧ ["a".toList].length = operandTokens .inc := by decide

end Sys2Proof.Tests
end

section
/-! State family (10_state.md): what keeps the program, what a load leaves, and where `pc + 1` leads. -/

namespace Sys2Proof.Machine

/-! ### The program through every operation (10_state.md R33) -/

theorem exec_keeps_prog {i : Instr} {s t : State} (h : exec i s = .next t) : t.prog = s.prog := by
  obtain ⟨v, dst, -, he⟩ | ⟨r, k, -, he⟩ | ⟨cond, off, -, he⟩ := exec_cases i s
  · cases he.symm.trans h
    exact copy_prog v dst s
  · cases he.symm.trans h
    exact addTo_prog r k s
  · cases he.symm.trans h
    exact jumpIfNonZero_prog cond off s

theorem step_keeps_prog {s t : State} (h : step s = .next t) : t.prog = s.prog := by
  obtain ⟨-, hs⟩ | ⟨i, -, hs⟩ | ⟨e, -, hs⟩ := step_cases s
  · cases hs.symm.trans h
    rfl
  · exact exec_keeps_prog (hs.symm.trans h)
  · cases hs.symm.trans h

/-- By induction on the run: each of its steps keeps the program. -/
theorem runs_keeps_prog {s t : State} (run : Runs s t) : t.prog = s.prog := by
  induction run with
  | halted => rfl
  | step _ one _ ih => exact ih.trans (step_keeps_prog one)

theorem call_keeps_prog {op : HostOp} {s t : State} {reply : Reply} (call : Call op s reply t) :
    t.prog = s.prog := by
  cases op with
  | readRegister r =>
    obtain ⟨-, rfl⟩ := call
    rfl
  | writeRegister r v =>
    obtain ⟨-, rfl⟩ := call
    exact writeReg_prog s r v
  | run => exact runs_keeps_prog call.2
  | step => exact step_keeps_prog call.1
  | readPC =>
    obtain ⟨-, rfl⟩ := call
    rfl

/-- Settles O24: an operation that keeps the program keeps the invariant, which speaks of the program alone. -/
theorem noOperationChangesTheProgram : Obligations.NoOperationChangesTheProgram :=
  ⟨fun _ _ h => ⟨step_keeps_prog h, storeInv_of_prog (step_keeps_prog h)⟩,
   fun _ _ _ _ call => ⟨call_keeps_prog call, storeInv_of_prog (call_keeps_prog call)⟩⟩

/-! ### The next slot (10_state.md R28) -/

/-- A store within the largest capacity (00_scope.md R8) keeps a Running `pc` below the end of `I64`. -/
theorem pc_lt_i64Max_of_running {s : State} (inv : StoreInv s) (running : Running s) : s.pc.toInt < i64Max := by
  obtain ⟨bound, -⟩ := (imageWellFormed_iff Config.largestCapacity s.prog).1 inv
  have length_le : (s.prog.length : Int) ≤ i64Max := Int.ofNat_le.2 bound
  exact lt_of_lt_of_le running.2 length_le

/-- Settles O14: below the end of `I64`, `pc + 1` does not wrap. -/
theorem nextSlotNeverOverflows : Obligations.NextSlotNeverOverflows := by
  intro s inv running
  have exact_sum : (s.pc + 1).toInt = s.pc.toInt + 1 := toInt_add_one (pc_lt_i64Max_of_running inv running)
  refine ⟨exact_sum, fun last => .inr ?_⟩
  change (s.prog.length : Int) ≤ (s.pc + 1).toInt
  omega

/-! ### Construction, which is the reset (10_state.md R34, 70_reset_and_hazards.md R150) -/

theorem construct_of_parse_error {nmax : Config.Capacity} {text : Text} {e : LoadError}
    (h : parse text = .error e) : construct nmax text = .error e := by
  simp only [construct, h]

theorem construct_of_parse_ok {nmax : Config.Capacity} {text : Text} {program : List Instr}
    (h : parse text = .ok program) (fits : program.length ≤ nmax.val) :
    construct nmax text = .ok (State.load (program.map encode)) := by
  simp only [construct, h, if_pos fits]

theorem running_load_iff (image : List InstrWord) : Running (State.load image) ↔ 0 < image.length := by
  simp [Running]

theorem halted_load_iff (image : List InstrWord) : Halted (State.load image) ↔ image.length = 0 := by
  rw [← not_running_iff_halted, running_load_iff, Nat.pos_iff_ne_zero, not_not]

/-- Settles O22: Construct answers the loaded state of the program's words, or the error of the parse. -/
theorem constructionIsTheReset : Obligations.ConstructionIsTheReset := by
  refine fun nmax text => ⟨fun _ h => construct_of_parse_error h, fun program h fits => ?_⟩
  refine ⟨_, construct_of_parse_ok h fits, fun r => readReg_load r _, load_pc _, load_prog _, ?_, ?_⟩
  · rw [running_load_iff, List.length_map]
  · rw [halted_load_iff, List.length_map]

/-- Settles O23: the empty text parses to the empty program, whose loaded state is the reset state. -/
theorem resetIsTheEmptyEngine : Obligations.ResetIsTheEmptyEngine :=
  ⟨fun nmax => construct_of_parse_ok (text := []) (program := []) rfl (Nat.zero_le nmax.val), reset_has_store,
   (halted_load_iff []).2 rfl⟩

end Sys2Proof.Machine
end

section
/-! Memory family (20_memory.md): what a fetch from the instruction store answers. -/

namespace Sys2Proof.Machine

/-! ### Where a fetch is defined, and what it answers (20_memory.md R41) -/

theorem ifetch_natCast {prog : List InstrWord} {n : Nat} (h : n < prog.length) :
    ifetch prog n = some prog[n] :=
  ifetch_of_getElem (Int.natCast_nonneg n) (List.getElem?_eq_getElem h)

/-- Settles O12: a fetch is defined exactly at the indices of the store's slots, and reads the slot there. -/
theorem fetchIsDefinedInsideTheProgram : Obligations.FetchIsDefinedInsideTheProgram := by
  refine fun prog i => ⟨ifetch_isSome_iff prog i, fun n inside at_slot => ?_⟩
  subst at_slot
  exact ifetch_natCast inside

end Sys2Proof.Machine
end

section
/-! Encoding family (30_encoding.md section 3): the decoder and the encoder undo each other, and the words that decode
are those that fit a row of the opcode table. -/

namespace Sys2Proof

/-! ### Errors of reads made one after another -/

theorem map_eq_error_iff {ε α β : Type} {e : ε} {x : Except ε α} (f : α → β) :
    x.map f = .error e ↔ x = .error e := by
  cases x <;> simp [Except.map]

/-- Reads in order raise only what one of them raises. -/
theorem bind_ne_error {ε α β : Type} {e : ε} {x : Except ε α} {f : α → Except ε β} (hx : x ≠ .error e)
    (hf : ∀ a, f a ≠ .error e) : (x >>= f) ≠ .error e := by
  cases x with
  | error d => exact fun h => hx (congrArg Except.error (Except.error.inj h))
  | ok a => exact hf a

/-- Two reads in order fail where one of them does. -/
theorem bind_error_iff {ε α β γ : Type} (x : Except ε α) (y : Except ε β) (f : α → β → γ) :
    (∃ why, (x >>= fun a => y >>= fun b => (.ok (f a b) : Except ε γ)) = .error why) ↔
      (∃ why, x = .error why) ∨ ∃ why, y = .error why := by
  cases x <;> cases y <;> simp [bind, Except.bind]

/-! ### What the decoder answers on an assembled word (30_encoding.md R78) -/

@[simp] theorem decodeValue_false (k : Word) : decodeValue false k = .ok (.imm k) := rfl

@[simp] theorem decodeValue_true_encodeReg (r : Reg) : decodeValue true (encodeReg r) = .ok (.reg r) := by
  simp [decodeValue, Except.map]

theorem decodeOnlyReg_encodeReg (r : Reg) : decodeOnlyReg true false (encodeReg r) 0#64 = .ok r := by
  simp [decodeOnlyReg]

theorem decode_assemble_copy {xk : Bool} {x : Word} {v : Value} (hv : decodeValue xk x = .ok v) (dst : Reg) :
    decode (assemble Opcode.cpy.bits xk true x (encodeReg dst)) = .ok (Instr.copy v dst) := by
  simp [decode, hv, bind, Except.bind]

theorem decode_assemble_inc (r : Reg) :
    decode (assemble Opcode.inc.bits true false (encodeReg r) 0#64) = .ok (.incReg r) := by
  simp [decode, decodeOnlyReg_encodeReg, Except.map]

theorem decode_assemble_dec (r : Reg) :
    decode (assemble Opcode.dec.bits true false (encodeReg r) 0#64) = .ok (.decReg r) := by
  simp [decode, decodeOnlyReg_encodeReg, Except.map]

theorem decode_assemble_jump {xk yk : Bool} {x y : Word} {cond off : Value} (hc : decodeValue xk x = .ok cond)
    (ho : decodeValue yk y = .ok off) :
    decode (assemble Opcode.jnz.bits xk yk x y) = .ok (Instr.jump cond off) := by
  simp [decode, hc, ho, bind, Except.bind]

/-! ### Decoding an encoding -/

theorem decode_encode (i : Instr) : decode (encode i) = .ok i := by
  cases i with
  | cpyImmReg k dst => exact decode_assemble_copy (decodeValue_false k) dst
  | cpyRegReg src dst => exact decode_assemble_copy (decodeValue_true_encodeReg src) dst
  | incReg r => exact decode_assemble_inc r
  | decReg r => exact decode_assemble_dec r
  | jnzImmImm cond off => exact decode_assemble_jump (decodeValue_false cond) (decodeValue_false off)
  | jnzImmReg cond off => exact decode_assemble_jump (decodeValue_false cond) (decodeValue_true_encodeReg off)
  | jnzRegImm cond off => exact decode_assemble_jump (decodeValue_true_encodeReg cond) (decodeValue_false off)
  | jnzRegReg cond off =>
    exact decode_assemble_jump (decodeValue_true_encodeReg cond) (decodeValue_true_encodeReg off)

/-- Settles O28: form by form, each operand's payload reads back as the operand. -/
theorem decodeReadsBackEveryInstruction : Obligations.DecodeReadsBackEveryInstruction := decode_encode

/-! ### Encoding a decoding -/

theorem encode_copy_of_decodeValue {xk : Bool} {x : Word} {v : Value} (hv : decodeValue xk x = .ok v) (dst : Reg) :
    encode (Instr.copy v dst) = assemble Opcode.cpy.bits xk true x (encodeReg dst) := by
  obtain ⟨rfl, rfl⟩ | ⟨rfl, src, rfl, rfl⟩ := decodeValue_inv hv <;> rfl

theorem encode_jump_of_decodeValue {xk yk : Bool} {x y : Word} {cond off : Value}
    (hc : decodeValue xk x = .ok cond) (ho : decodeValue yk y = .ok off) :
    encode (Instr.jump cond off) = assemble Opcode.jnz.bits xk yk x y := by
  obtain ⟨rfl, rfl⟩ | ⟨rfl, src, rfl, rfl⟩ := decodeValue_inv hc <;>
    obtain ⟨rfl, rfl⟩ | ⟨rfl, dst, rfl, rfl⟩ := decodeValue_inv ho <;> rfl

/-- A word that decodes is the encoding of its instruction: no bit of it is ignored. -/
theorem encode_of_decode {w : InstrWord} {i : Instr} (h : decode w = .ok i) : encode i = w := by
  rw [← assemble_fields w]
  obtain ⟨v, dst, rfl, hop, hv, hyk, hy⟩ | ⟨r, hi, hr⟩ | ⟨cond, off, rfl, hop, hc, ho⟩ := decode_inv h
  · rw [encode_copy_of_decodeValue hv, hop, hyk, hy]
  · obtain ⟨hxk, hyk, hx, hy⟩ := decodeOnlyReg_inv hr
    rw [hxk, hyk, ← hx, hy]
    obtain ⟨rfl, hop⟩ | ⟨rfl, hop⟩ := hi <;> rw [hop] <;> rfl
  · rw [encode_jump_of_decodeValue hc ho, hop]

/-- The legal words are the encodings (30_encoding.md R78). -/
theorem decode_eq_ok_iff {w : InstrWord} {i : Instr} : decode w = .ok i ↔ encode i = w :=
  ⟨encode_of_decode, by rintro rfl; exact decode_encode i⟩

/-! ### The rows of the opcode table (30_encoding.md R77) -/

theorem row_fits_encode (i : Instr) : i.row.fits (encode i) = true := by
  cases i with
  | cpyImmReg k dst => exact Laws.RowFit.cpyImmReg k dst
  | cpyRegReg src dst => exact Laws.RowFit.cpyRegReg src dst
  | incReg r => exact Laws.RowFit.incReg r
  | decReg r => exact Laws.RowFit.decReg r
  | jnzImmImm cond off => exact Laws.RowFit.jnzImmImm cond off
  | jnzImmReg cond off => exact Laws.RowFit.jnzImmReg cond off
  | jnzRegImm cond off => exact Laws.RowFit.jnzRegImm cond off
  | jnzRegReg cond off => exact Laws.RowFit.jnzRegReg cond off

theorem row_mem_opcodeRows (i : Instr) : i.row ∈ opcodeRows := by
  cases i <;> simp [opcodeRows, Instr.row]

/-- The table holds the rows of instructions only. -/
theorem exists_row_of_mem_opcodeRows {row : TableRow} (h : row ∈ opcodeRows) : ∃ i : Instr, i.row = row := by
  simp only [opcodeRows, List.mem_cons, List.not_mem_nil, or_false] at h
  rcases h with rfl | rfl | rfl | rfl | rfl | rfl | rfl | rfl <;> exact ⟨_, rfl⟩

/-- A payload whose bits 63:2 are zero names a register. -/
theorem exists_encodeReg_of_masked {p : Word} (h : p &&& registerMask = 0) : ∃ r, encodeReg r = p := by
  obtain ⟨r, hp, -⟩ | ⟨hne, -⟩ := decodeReg_cases p
  · exact ⟨r, hp.symm⟩
  · exact absurd ((and_registerMask p).1 h) hne

/-- A word that fits the row of `j` encodes an instruction of that row: the row leaves free exactly the operands. -/
theorem exists_encode_of_row_fits {j : Instr} {w : InstrWord} (h : j.row.fits w = true) :
    ∃ i : Instr, i.row = j.row ∧ encode i = w := by
  rw [← assemble_fields w]
  cases j with
  | cpyImmReg k dst =>
    obtain ⟨hop, hxk, hyk, hy⟩ := (fits_cpyImmReg w k dst).1 h
    obtain ⟨dst', hy⟩ := exists_encodeReg_of_masked hy
    exact ⟨.cpyImmReg (xField w) dst', rfl, by rw [hop, hxk, hyk, ← hy]; rfl⟩
  | cpyRegReg src dst =>
    obtain ⟨hop, hxk, hyk, hx, hy⟩ := (fits_cpyRegReg w src dst).1 h
    obtain ⟨src', hx⟩ := exists_encodeReg_of_masked hx
    obtain ⟨dst', hy⟩ := exists_encodeReg_of_masked hy
    exact ⟨.cpyRegReg src' dst', rfl, by rw [hop, hxk, hyk, ← hx, ← hy]; rfl⟩
  | incReg r =>
    obtain ⟨hop, hxk, hyk, hx, hy⟩ := (fits_incReg w r).1 h
    obtain ⟨r', hx⟩ := exists_encodeReg_of_masked hx
    exact ⟨.incReg r', rfl, by rw [hop, hxk, hyk, ← hx, hy]; rfl⟩
  | decReg r =>
    obtain ⟨hop, hxk, hyk, hx, hy⟩ := (fits_decReg w r).1 h
    obtain ⟨r', hx⟩ := exists_encodeReg_of_masked hx
    exact ⟨.decReg r', rfl, by rw [hop, hxk, hyk, ← hx, hy]; rfl⟩
  | jnzImmImm cond off =>
    obtain ⟨hop, hxk, hyk⟩ := (fits_jnzImmImm w cond off).1 h
    exact ⟨.jnzImmImm (xField w) (yField w), rfl, by rw [hop, hxk, hyk]; rfl⟩
  | jnzImmReg cond off =>
    obtain ⟨hop, hxk, hyk, hy⟩ := (fits_jnzImmReg w cond off).1 h
    obtain ⟨off', hy⟩ := exists_encodeReg_of_masked hy
    exact ⟨.jnzImmReg (xField w) off', rfl, by rw [hop, hxk, hyk, ← hy]; rfl⟩
  | jnzRegImm cond off =>
    obtain ⟨hop, hxk, hyk, hx⟩ := (fits_jnzRegImm w cond off).1 h
    obtain ⟨cond', hx⟩ := exists_encodeReg_of_masked hx
    exact ⟨.jnzRegImm cond' (yField w), rfl, by rw [hop, hxk, hyk, ← hx]; rfl⟩
  | jnzRegReg cond off =>
    obtain ⟨hop, hxk, hyk, hx, hy⟩ := (fits_jnzRegReg w cond off).1 h
    obtain ⟨cond', hx⟩ := exists_encodeReg_of_masked hx
    obtain ⟨off', hy⟩ := exists_encodeReg_of_masked hy
    exact ⟨.jnzRegReg cond' off', rfl, by rw [hop, hxk, hyk, ← hx, ← hy]; rfl⟩

/-- A word that fits a row of the table decodes to an instruction of that row. -/
theorem exists_decode_of_fits {row : TableRow} {w : InstrWord} (mem : row ∈ opcodeRows) (h : row.fits w = true) :
    ∃ i : Instr, i.row = row ∧ decode w = .ok i := by
  obtain ⟨j, rfl⟩ := exists_row_of_mem_opcodeRows mem
  obtain ⟨i, hrow, hw⟩ := exists_encode_of_row_fits h
  exact ⟨i, hrow, decode_eq_ok_iff.2 hw⟩

theorem row_fits_of_decode {w : InstrWord} {i : Instr} (h : decode w = .ok i) : i.row.fits w = true := by
  rw [← encode_of_decode h]
  exact row_fits_encode i

theorem legalWord_iff_decode (w : InstrWord) : legalWord w = true ↔ ∃ i, decode w = .ok i := by
  rw [legalWord, List.any_eq_true]
  constructor
  · rintro ⟨row, mem, hfit⟩
    obtain ⟨i, -, hi⟩ := exists_decode_of_fits mem hfit
    exact ⟨i, hi⟩
  · rintro ⟨i, hi⟩
    exact ⟨i.row, row_mem_opcodeRows i, row_fits_of_decode hi⟩

theorem legalWord_eq_false_iff_decode (w : InstrWord) : legalWord w = false ↔ ∃ why, decode w = .error why := by
  rw [← Bool.not_eq_true, legalWord_iff_decode]
  cases decode w <;> simp

@[simp] theorem legalWord_encode (i : Instr) : legalWord (encode i) = true :=
  (legalWord_iff_decode _).2 ⟨i, decode_encode i⟩

/-- Settles O29: two rows that a word fits are both the row of its one decoding. -/
theorem legalWordsAreTheTableRows : Obligations.LegalWordsAreTheTableRows := by
  refine fun w => ⟨(legalWord_iff_decode w).symm, fun i hi => ⟨row_fits_of_decode hi, encode_of_decode hi⟩, ?_⟩
  intro row₁ mem₁ row₂ mem₂ fits₁ fits₂
  obtain ⟨i, rfl, hi⟩ := exists_decode_of_fits mem₁ fits₁
  obtain ⟨j, rfl, hj⟩ := exists_decode_of_fits mem₂ fits₂
  cases hi.symm.trans hj
  rfl

end Sys2Proof
end

section
/-! Encoding family (30_encoding.md section 2): what the parser makes of tokens and lines, and the printer's text read
back. -/

namespace Sys2Proof.Machine

/-! ### Operand tokens (30_encoding.md R65 to R68) -/

theorem value_of_immediate {t : Token} {k : Word} (h : immediate t = some k) : value t = .ok (.imm k) := by
  simp only [value, h]

theorem value_of_register {t : Token} {r : Reg} (hi : immediate t = none) (hr : register t = .ok r) :
    value t = .ok (.reg r) := by
  have ht : registerToken t = some r := (registerToken_eq_some_iff t r).2 ((register_eq_ok_iff t r).1 hr)
  simp only [value, hi, ht]

theorem register_of_no_register {t : Token} (h : ∀ r, register t ≠ .ok r) :
    register t = .error (.malformedRegisterOperand t) := by
  cases hr : register t with
  | ok r => exact absurd hr (h r)
  | error e => rw [register_error hr]

theorem value_of_neither {t : Token} (hi : immediate t = none) (h : ∀ r, register t ≠ .ok r) :
    value t = .error (.malformedOperand t) := by
  have ht : registerToken t = none := by
    refine Option.eq_none_iff_forall_ne_some.2 fun r hr => h r ?_
    exact (register_eq_ok_iff t r).2 ((registerToken_eq_some_iff t r).1 hr)
  simp only [value, hi, ht]

theorem no_register_of_immediate {t : Token} {k : Word} (h : immediate t = some k) (r : Reg) :
    register t ≠ .ok r := by
  intro hr
  rw [(register_eq_ok_iff t r).1 hr, immediate_printReg] at h
  cases h

/-- Settles O35: a token is a literal, or a register, or neither, and no register's letter is a literal. -/
theorem valueTokensResolveInOrder : Obligations.ValueTokensResolveInOrder := fun _ =>
  ⟨fun _ h => ⟨value_of_immediate h, no_register_of_immediate h⟩, fun _ hi hr => value_of_register hi hr,
    value_of_neither⟩

/-! ### Integer literals (30_encoding.md R66) -/

theorem immediate_of_inI64 {t : Token} {z : Int} (h : intLiteral t = some z) (hz : InI64 z) :
    immediate t = some (BitVec.ofInt 64 z) := by
  simp only [immediate, h, if_pos hz]

theorem immediate_of_not_inI64 {t : Token} {z : Int} (h : intLiteral t = some z) (hz : ¬ InI64 z) :
    immediate t = none := by
  simp only [immediate, h, if_neg hz]

theorem immediate_of_no_intLiteral {t : Token} (h : intLiteral t = none) : immediate t = none := by
  simp only [immediate, h]

theorem no_register_of_intLiteral {t : Token} {z : Int} (h : intLiteral t = some z) (r : Reg) :
    register t ≠ .ok r := by
  have letter : intLiteral (printReg r) = none := by cases r <;> decide
  intro hr
  rw [(register_eq_ok_iff t r).1 hr, letter] at h
  cases h

/-- Settles O36: digits with or without a `-` denote their integer, and only its range decides; no token of another
shape denotes one. -/
theorem integerLiteralsAreSignedDecimals : Obligations.IntegerLiteralsAreSignedDecimals := by
  refine ⟨fun digits t z nonempty shape => ?_, fun t other => ?_⟩
  · have literal : intLiteral t = some z := by
      obtain ⟨rfl, rfl⟩ | ⟨rfl, rfl⟩ := shape
      · exact intLiteral_decimalText nonempty
      · exact intLiteral_minus nonempty
    refine ⟨fun hz => ?_, fun hz => ?_⟩
    · have imm := immediate_of_inI64 literal hz
      exact ⟨imm, value_of_immediate imm⟩
    · have imm := immediate_of_not_inI64 literal hz
      exact ⟨imm, value_of_neither imm (no_register_of_intLiteral literal)⟩
  · refine immediate_of_no_intLiteral (Option.eq_none_iff_forall_ne_some.2 fun z literal => ?_)
    obtain ⟨digits, nonempty, shape⟩ := intLiteral_eq_some literal
    obtain ⟨noDigits, noMinus⟩ := other digits nonempty
    exact shape.elim noDigits noMinus

/-! ### Recognized lines (30_encoding.md R63, R69, R70) -/

theorem lineInstr_of_opcode {first : Token} {op : Opcode} (h : opcodeToken first = some op)
    (operands : List Token) : lineInstr (first :: operands) = (instrOf op operands).map some := by
  simp only [lineInstr, h]

theorem instrOf_copy {t1 t2 : Token} {v : Value} {dst : Reg} (h1 : value t1 = .ok v) (h2 : register t2 = .ok dst) :
    instrOf .cpy [t1, t2] = .ok (Instr.copy v dst) := by
  simp only [instrOf, h1, h2, bind, Except.bind]

theorem instrOf_jump {t1 t2 : Token} {cond off : Value} (h1 : value t1 = .ok cond) (h2 : value t2 = .ok off) :
    instrOf .jnz [t1, t2] = .ok (Instr.jump cond off) := by
  simp only [instrOf, h1, h2, bind, Except.bind]

theorem instrOf_inc (t : Token) : instrOf .inc [t] = (register t).map .incReg := rfl

theorem instrOf_dec (t : Token) : instrOf .dec [t] = (register t).map .decReg := rfl

/-- A malformed destination is what a copy raises, once its source resolves (decision D12). -/
theorem instrOf_copy_error {t1 t2 : Token} {v : Value} {e : LoadError} (h1 : value t1 = .ok v)
    (h2 : register t2 = .error e) : instrOf .cpy [t1, t2] = .error e := by
  simp only [instrOf, h1, h2, bind, Except.bind]

/-- Settles O37: a token that is no register's letter is malformed, and the line that has it in a register position
raises the same. -/
theorem registerPositionsTakeOnlyRegisters : Obligations.RegisterPositionsTakeOnlyRegisters := by
  refine fun t => ⟨fun r => ?_, fun noRegister => ?_⟩
  · rw [register_eq_ok_iff]
    cases r <;> simp [printReg]
  · have bad := register_of_no_register noRegister
    refine ⟨bad, ?_, ?_, fun t1 v source => ?_⟩
    · rw [lineInstr_of_opcode (op := .inc) (by decide), instrOf_inc, bad]
      rfl
    · rw [lineInstr_of_opcode (op := .dec) (by decide), instrOf_dec, bad]
      rfl
    · rw [lineInstr_of_opcode (op := .cpy) (by decide), instrOf_copy_error source bad]
      rfl

/-! ### The operand count (30_encoding.md R70) -/

theorem value_ne_operandCount (t : Token) : value t ≠ .error .operandCount := fun h => by
  cases value_error h

theorem register_ne_operandCount (t : Token) : register t ≠ .error .operandCount := fun h => by
  cases register_error h

/-- With the right number of operands, no error is one of the count. -/
theorem instrOf_ne_operandCount {op : Opcode} {operands : List Token} (h : operands.length = operandTokens op) :
    instrOf op operands ≠ .error .operandCount := by
  cases op with
  | cpy =>
    obtain ⟨t1, t2, rfl⟩ := List.length_eq_two.1 h
    refine bind_ne_error (value_ne_operandCount t1) fun v => ?_
    exact bind_ne_error (register_ne_operandCount t2) fun dst => by simp
  | inc =>
    obtain ⟨t, rfl⟩ := List.length_eq_one_iff.1 h
    exact mt (map_eq_error_iff _).1 (register_ne_operandCount t)
  | dec =>
    obtain ⟨t, rfl⟩ := List.length_eq_one_iff.1 h
    exact mt (map_eq_error_iff _).1 (register_ne_operandCount t)
  | jnz =>
    obtain ⟨t1, t2, rfl⟩ := List.length_eq_two.1 h
    refine bind_ne_error (value_ne_operandCount t1) fun cond => ?_
    exact bind_ne_error (value_ne_operandCount t2) fun off => by simp

/-- With any other number, the count is the error. -/
theorem instrOf_of_wrong_count {op : Opcode} {operands : List Token} (h : operands.length ≠ operandTokens op) :
    instrOf op operands = .error .operandCount := by
  unfold instrOf
  split
  · exact absurd rfl h
  · exact absurd rfl h
  · exact absurd rfl h
  · exact absurd rfl h
  · rfl

/-- Settles O38: with the right count no operand raises OperandCount, and with another nothing else is looked at. -/
theorem operandCountIsCheckedFirst : Obligations.OperandCountIsCheckedFirst := by
  intro op first operands recognized
  rw [lineInstr_of_opcode recognized, map_eq_error_iff]
  exact ⟨fun h count => instrOf_ne_operandCount count h, instrOf_of_wrong_count⟩

/-! ### Lines in order, and discarded lines (30_encoding.md R64, R71) -/

/-- Settles O34: the parse of two joined texts binds the two parses one after the other. -/
theorem linesParseInOrder : Obligations.LinesParseInOrder := by
  refine fun before after => ⟨fun p q hp hq => ?_, fun e he => ?_, fun p e hp he => ?_⟩
  · rw [parse_append, hp, hq]
    rfl
  · rw [parse_append, he]
    rfl
  · rw [parse_append, hp, he]
    rfl

theorem parse_discarded {line : Text} (oneLine : '\n' ∉ line) (h : Discarded line) : parse line = .ok [] := by
  rw [parse_line oneLine, lineInstr_discarded h]
  rfl

/-- A text whose first line yields nothing parses as the rest. -/
theorem parse_append_of_nil {line : Text} (h : parse line = .ok []) (after : Text) :
    parse (line ++ '\n' :: after) = parse after := by
  rw [parse_append, h]
  cases parse after <;> rfl

/-- Settles O33: a discarded line parses to the empty program, which joins to the lines after it without a trace. -/
theorem discardedLinesTakeNoSlot : Obligations.DiscardedLinesTakeNoSlot := by
  intro before line after oneLine discarded
  have nothing := parse_discarded oneLine discarded
  refine ⟨nothing, ?_⟩
  rw [List.append_assoc, List.cons_append, parse_append, parse_append_of_nil nothing, parse_append]

/-! ### Printed programs (30_encoding.md R81) -/

/-- A token that spaces and line feeds around it leave as it is. -/
abbrev PlainToken (t : Token) : Prop := t ≠ [] ∧ ∀ ch ∈ t, isWhitespace ch = false ∧ ch ≠ '\n'

theorem plainToken_printValue (v : Value) : PlainToken (printValue v) := by
  cases v with
  | imm k => exact printImmediate_isToken k
  | reg r => exact printReg_isToken r

theorem plainToken_of_opcodeToken {t : Token} {op : Opcode} (h : opcodeToken t = some op) : PlainToken t := by
  unfold opcodeToken at h
  split_ifs at h with hcpy hinc hdec hjnz
  · subst hcpy; simp [PlainToken, isWhitespace]
  · subst hinc; simp [PlainToken, isWhitespace]
  · subst hdec; simp [PlainToken, isWhitespace]
  · subst hjnz; simp [PlainToken, isWhitespace]

theorem plainToken_of_mem_printTokens {i : Instr} {t : Token} (h : t ∈ printTokens i) : PlainToken t := by
  obtain ⟨v, dst, -, hp⟩ | ⟨r, -, hp⟩ | ⟨r, -, hp⟩ | ⟨cond, off, -, hp⟩ := printTokens_shape i <;>
    simp only [hp, List.mem_cons, List.not_mem_nil, or_false] at h
  · rcases h with rfl | rfl | rfl
    exacts [plainToken_of_opcodeToken (op := .cpy) (by decide), plainToken_printValue v, printReg_isToken dst]
  · rcases h with rfl | rfl
    exacts [plainToken_of_opcodeToken (op := .inc) (by decide), printReg_isToken r]
  · rcases h with rfl | rfl
    exacts [plainToken_of_opcodeToken (op := .dec) (by decide), printReg_isToken r]
  · rcases h with rfl | rfl | rfl
    exacts [plainToken_of_opcodeToken (op := .jnz) (by decide), plainToken_printValue cond,
      plainToken_printValue off]

/-- What is joined holds the tokens' characters and spaces. -/
theorem mem_joinTokens {tokens : List Token} {ch : Char} (h : ch ∈ joinTokens tokens) :
    ch = ' ' ∨ ∃ t ∈ tokens, ch ∈ t := by
  induction tokens with
  | nil => simp [joinTokens] at h
  | cons t rest ih =>
    cases rest with
    | nil => exact .inr ⟨t, by simp, h⟩
    | cons u more =>
      rw [joinTokens, List.mem_append, List.mem_cons] at h
      · obtain h | h | h := h
        · exact .inr ⟨t, by simp, h⟩
        · exact .inl h
        · obtain h | ⟨v, hv, h⟩ := ih h
          · exact .inl h
          · exact .inr ⟨v, by simp [hv], h⟩
      · simp

/-- A printed instruction is one line. -/
theorem lf_not_mem_joinTokens (i : Instr) : '\n' ∉ joinTokens (printTokens i) := by
  intro h
  obtain h | ⟨t, mem, h⟩ := mem_joinTokens h
  · exact absurd h (by decide)
  · obtain ⟨-, ordinary⟩ := plainToken_of_mem_printTokens mem
    exact (ordinary _ h).2 rfl

theorem register_printReg (r : Reg) : register (printReg r) = .ok r := (register_eq_ok_iff _ r).2 rfl

theorem lineInstr_printTokens (i : Instr) : lineInstr (printTokens i) = .ok (some i) := by
  obtain ⟨v, dst, rfl, hp⟩ | ⟨r, rfl, hp⟩ | ⟨r, rfl, hp⟩ | ⟨cond, off, rfl, hp⟩ := printTokens_shape i <;> rw [hp]
  · rw [lineInstr_of_opcode (op := .cpy) (by decide), instrOf_copy (value_printValue v) (register_printReg dst)]
    rfl
  · rw [lineInstr_of_opcode (op := .inc) (by decide), instrOf_inc, register_printReg]
    rfl
  · rw [lineInstr_of_opcode (op := .dec) (by decide), instrOf_dec, register_printReg]
    rfl
  · rw [lineInstr_of_opcode (op := .jnz) (by decide), instrOf_jump (value_printValue cond) (value_printValue off)]
    rfl

theorem parse_printed_line (i : Instr) : parse (joinTokens (printTokens i)) = .ok [i] := by
  have tokens : tokensOf (joinTokens (printTokens i)) = printTokens i := by
    refine tokensOf_joinTokens fun t mem => ?_
    obtain ⟨nonempty, ordinary⟩ := plainToken_of_mem_printTokens mem
    exact ⟨nonempty, fun ch hc => (ordinary ch hc).1⟩
  rw [parse_line (lf_not_mem_joinTokens i), tokens, lineInstr_printTokens]
  rfl

/-- By induction on the program: its first line reads back, and a line feed separates it from the rest. -/
theorem parse_print (program : List Instr) : parse (print program) = .ok program := by
  induction program with
  | nil => rfl
  | cons i rest ih =>
    rw [print, parse_append, parse_printed_line, ih]
    rfl

/-- Settles O40, for every program at once. -/
theorem printedProgramsParseBack : Obligations.PrintedProgramsParseBack := parse_print

end Sys2Proof.Machine
end

section
/-! Encoding family (30_encoding.md R79 to R81): the reserved words case by case, the images that load, and the engines
that text and images construct. -/

namespace Sys2Proof

/-! ### The reserved words (30_encoding.md R79) -/

/-- The payload does not name a register: one of its bits 63:2 is set (30_encoding.md R76). -/
abbrev NoRegister (p : Word) : Prop := p.extractLsb' 2 62 ≠ 0

theorem decodeReg_error_iff (p : Word) : (∃ why, decodeReg p = .error why) ↔ NoRegister p := by
  obtain ⟨r, rfl, hd⟩ | ⟨hne, hd⟩ := decodeReg_cases p
  · simp [hd, NoRegister, (and_registerMask _).1 (encodeReg_and_registerMask r)]
  · simp [hd, NoRegister, hne]

theorem decodeValue_error_iff (k : Bool) (p : Word) :
    (∃ why, decodeValue k p = .error why) ↔ k = true ∧ NoRegister p := by
  rw [← decodeReg_error_iff]
  cases k
  · simp
  · simp [decodeValue, map_eq_error_iff]

theorem decodeOnlyReg_error_iff (xk yk : Bool) (x y : Word) : (∃ why, decodeOnlyReg xk yk x y = .error why) ↔
    xk = false ∨ yk = true ∨ NoRegister x ∨ y ≠ 0 := by
  rw [← decodeReg_error_iff]
  by_cases hk : xk = false ∨ yk = true
  · simp only [decodeOnlyReg, if_pos hk]
    tauto
  · simp only [decodeOnlyReg, if_neg hk]
    cases decodeReg x with
    | error e => simp
    | ok r => by_cases hy : y = 0 <;> simp_all

/-- When a word's decoding fails, opcode by opcode. -/
def FieldsReserved (op : Opcode) (xk yk : Bool) (x y : Word) : Prop :=
  match op with
  | .cpy => yk = false ∨ xk = true ∧ NoRegister x ∨ NoRegister y
  | .inc | .dec => xk = false ∨ yk = true ∨ NoRegister x ∨ y ≠ 0
  | .jnz => xk = true ∧ NoRegister x ∨ yk = true ∧ NoRegister y

theorem decode_assemble_error_iff (op : Opcode) (xk yk : Bool) (x y : Word) :
    (∃ why, decode (assemble op.bits xk yk x y) = .error why) ↔ FieldsReserved op xk yk x y := by
  cases op with
  | cpy =>
    cases yk
    · simp [decode, FieldsReserved]
    · simp [decode, FieldsReserved, bind_error_iff, decodeValue_error_iff, decodeReg_error_iff]
  | inc => simp [decode, FieldsReserved, map_eq_error_iff, decodeOnlyReg_error_iff]
  | dec => simp [decode, FieldsReserved, map_eq_error_iff, decodeOnlyReg_error_iff]
  | jnz => simp [decode, FieldsReserved, bind_error_iff, decodeValue_error_iff]

theorem decode_error_iff (w : InstrWord) : (∃ why, decode w = .error why) ↔
    FieldsReserved (Opcode.ofBits (opField w)) (xkField w) (ykField w) (xField w) (yField w) := by
  rw [← decode_assemble_error_iff, Opcode.bits_ofBits, assemble_fields]

/-- Bits 131 to 128 of a word, from its fields (30_encoding.md R75). -/
def controlNibble (op : BitVec 2) (xk yk : Bool) : BitVec 4 := op ++ BitVec.ofBool xk ++ BitVec.ofBool yk

theorem controlNibble_fields (w : InstrWord) :
    controlNibble (opField w) (xkField w) (ykField w) = w.extractLsb' 128 4 := by
  apply BitVec.eq_of_getLsbD_eq
  intro i hi
  rw [controlNibble, BitVec.getLsbD_extractLsb', BitVec.getLsbD_append, BitVec.getLsbD_append]
  by_cases h0 : i = 0
  · simp [h0, ykField]
  by_cases h1 : i = 1
  · simp [h1, xkField]
  · simp [hi, opField, show ¬ i < 1 by omega, show ¬ i - 1 < 1 by omega, show i - 1 - 1 < 2 by omega,
      show 130 + (i - 1 - 1) = 128 + i by omega]

theorem xField_high_bits (w : InstrWord) : (xField w).extractLsb' 2 62 = w.extractLsb' 66 62 := by
  apply BitVec.eq_of_getLsbD_eq
  intro i hi
  simp [xField, hi, show 2 + i < 64 by omega, show 64 + (2 + i) = 66 + i by omega]

theorem yField_high_bits (w : InstrWord) : (yField w).extractLsb' 2 62 = w.extractLsb' 2 62 := by
  apply BitVec.eq_of_getLsbD_eq
  intro i hi
  simp [yField, hi]

/-- The four cases of 30_encoding.md R79 on the fields of a word, its register payloads counted one by one. -/
theorem fieldsReserved_iff (op : Opcode) (xk yk : Bool) (x y : Word) : FieldsReserved op xk yk x y ↔
    (controlNibble op.bits xk yk ∈ [0x0#4, 0x2#4, 0x4#4, 0x5#4, 0x7#4, 0x8#4, 0x9#4, 0xB#4] ∨
      (xk = true ∧ NoRegister x) ∨ (yk = true ∧ NoRegister y) ∨
      (controlNibble op.bits xk yk ∈ [0x6#4, 0xA#4] ∧ y ≠ 0)) := by
  have reserved : controlNibble op.bits xk yk ∈ [0x0#4, 0x2#4, 0x4#4, 0x5#4, 0x7#4, 0x8#4, 0x9#4, 0xB#4] ↔
      op = .cpy ∧ yk = false ∨ (op = .inc ∨ op = .dec) ∧ (xk = false ∨ yk = true) := by
    cases op <;> cases xk <;> cases yk <;> decide
  have unused : controlNibble op.bits xk yk ∈ [0x6#4, 0xA#4] ↔
      (op = .inc ∨ op = .dec) ∧ xk = true ∧ yk = false := by
    cases op <;> cases xk <;> cases yk <;> decide
  rw [reserved, unused]
  cases op with
  | cpy => cases yk <;> simp [FieldsReserved]
  | inc => cases xk <;> cases yk <;> simp [FieldsReserved]
  | dec => cases xk <;> cases yk <;> simp [FieldsReserved]
  | jnz => simp [FieldsReserved]

end Sys2Proof

namespace Sys2Proof.Machine

/-! ### Images (30_encoding.md R80) -/

theorem firstReserved_eq_none_iff (start : Nat) (image : List InstrWord) :
    firstReserved start image = none ↔ ∀ w ∈ image, legalWord w = true := by
  induction image generalizing start with
  | nil => simp [firstReserved]
  | cons w rest ih =>
    rw [firstReserved, List.forall_mem_cons, legalWord_iff_decode]
    cases hw : decode w with
    | ok i => simp [ih]
    | error why => simp

/-- The first reserved word is reported by its place behind the legal words before it. -/
theorem firstReserved_append {before after : List InstrWord} {w : InstrWord} (start : Nat)
    (legal : ∀ u ∈ before, legalWord u = true) (reserved : legalWord w = false) :
    firstReserved start (before ++ w :: after) = some (start + before.length) := by
  induction before generalizing start with
  | nil =>
    obtain ⟨why, hw⟩ := (legalWord_eq_false_iff_decode w).1 reserved
    simp [firstReserved, hw]
  | cons u rest ih =>
    obtain ⟨hu, hrest⟩ := List.forall_mem_cons.1 legal
    obtain ⟨i, hi⟩ := (legalWord_iff_decode u).1 hu
    simp only [List.cons_append, firstReserved, hi, ih (start + 1) hrest, List.length_cons]
    congr 1
    omega

theorem constructImage_of_firstReserved {nmax : Config.Capacity} {image : List InstrWord} {index : Nat}
    (fits : image.length ≤ nmax.val) (h : firstReserved 0 image = some index) :
    constructImage nmax image = .error (.reservedEncoding index) := by
  simp only [constructImage, if_pos fits, h]

/-- An image constructs an engine exactly where it is well formed, and then its own loaded state. -/
theorem constructImage_eq_ok_iff {nmax : Config.Capacity} {image : List InstrWord} {s : State} :
    constructImage nmax image = .ok s ↔ imageWellFormed nmax image = true ∧ s = State.load image := by
  rw [imageWellFormed_iff, ← firstReserved_eq_none_iff 0]
  by_cases fits : image.length ≤ nmax.val
  · cases h : firstReserved 0 image with
    | none => simp [constructImage, fits, h, eq_comm]
    | some index => simp [constructImage, fits, h]
  · simp [constructImage, fits]

theorem ifetch_of_nonneg {prog : List InstrWord} {i : Int} (h : 0 ≤ i) : ifetch prog i = prog[i.toNat]? := by
  obtain ⟨n, rfl⟩ := Int.eq_ofNat_of_zero_le h
  rfl

/-- Settles O32: the scan of an image finds its first reserved word, or none. -/
theorem imagesLoadOrNameTheirFirstReservedWord : Obligations.ImagesLoadOrNameTheirFirstReservedWord := by
  refine fun nmax image fits => ⟨fun legal => ?_, fun before after w split legal reserved => ?_⟩
  · refine ⟨_, constructImage_eq_ok_iff.2 ⟨(imageWellFormed_iff _ _).2 ⟨fits, legal⟩, rfl⟩, rfl, fun p nonneg => ?_⟩
    exact congrArg (Option.map decode) (ifetch_of_nonneg nonneg)
  · subst split
    have first := firstReserved_append (after := after) 0 legal reserved
    rw [Nat.zero_add] at first
    exact constructImage_of_firstReserved fits first

/-! ### Engines (70_reset_and_hazards.md R151, R152) -/

/-- A program is well formed as an image, within the same capacity. -/
theorem imageWellFormed_map_encode {nmax : Config.Capacity} {program : List Instr}
    (fits : program.length ≤ nmax.val) : imageWellFormed nmax (program.map encode) = true := by
  simpa [imageWellFormed_iff] using fits

/-- What a text that constructs an engine is. -/
theorem construct_eq_ok {nmax : Config.Capacity} {text : Text} {s : State} (h : construct nmax text = .ok s) :
    ∃ program, parse text = .ok program ∧ program.length ≤ nmax.val ∧ s = State.load (program.map encode) := by
  unfold construct at h
  split at h
  · cases h
  · next program parsed =>
    split at h
    · next fits =>
      cases h
      exact ⟨program, parsed, fits, rfl⟩
    · cases h

/-- Every engine's store is well formed within the capacity it was built under: a construction loads no other, and no
operation changes it. -/
theorem engine_imageWellFormed {nmax : Config.Capacity} {s : State} (engine : Engine nmax s) :
    imageWellFormed nmax s.prog = true := by
  induction engine with
  | fromText built =>
    obtain ⟨program, -, fits, rfl⟩ := construct_eq_ok built
    exact imageWellFormed_map_encode fits
  | fromImage built =>
    obtain ⟨wellFormed, rfl⟩ := constructImage_eq_ok_iff.1 built
    exact wellFormed
  | after _ call ih => rwa [call_keeps_prog call]

/-- Settles O25. A store within a capacity is within the largest one. -/
theorem enginesMeetTheStoreInvariant : Obligations.EnginesMeetTheStoreInvariant := by
  intro nmax s engine
  have wellFormed := engine_imageWellFormed engine
  exact ⟨imageWellFormed_largest wellFormed, ((imageWellFormed_iff _ _).1 wellFormed).1⟩

/-- Settles O30: the cases of a word are those of its fields, an image with a reserved word has a first one, and an
engine's store is well formed. -/
theorem reservedWordsAreTheThreeCases : Obligations.ReservedWordsAreTheThreeCases := by
  refine ⟨fun w => ?_, fun nmax image w why mem reserved fits => ?_, fun nmax s w engine mem => ?_⟩
  · rw [decode_error_iff, fieldsReserved_iff, Opcode.bits_ofBits, controlNibble_fields, NoRegister, NoRegister,
      xField_high_bits, yField_high_bits]
    rfl
  · cases h : firstReserved 0 image with
    | some index => exact ⟨index, constructImage_of_firstReserved fits h⟩
    | none =>
      have legal := (firstReserved_eq_none_iff 0 image).1 h w mem
      rw [(legalWord_eq_false_iff_decode w).2 ⟨why, reserved⟩] at legal
      cases legal
  · obtain ⟨-, legal⟩ := (imageWellFormed_iff _ _).1 (engine_imageWellFormed engine)
    exact (legalWord_iff_decode w).1 (legal w mem)

/-! ### The refused step (40_execute_loop.md R94, 30_encoding.md R79) -/

theorem exec_ne_refused (i : Instr) (s : State) (why : Refusal) : exec i s ≠ .refused why := by
  obtain ⟨v, dst, -, he⟩ | ⟨r, k, -, he⟩ | ⟨cond, off, -, he⟩ := exec_cases i s <;> simp [he]

theorem fetchInstr_reserved_iff (s : State) : (∃ e, fetchInstr s = some (.error e)) ↔
    ∃ w, ifetch s.prog s.pc.toInt = some w ∧ legalWord w = false := by
  simp only [fetchInstr, Option.map_eq_some_iff, legalWord_eq_false_iff_decode]
  exact ⟨fun ⟨e, w, hw, he⟩ => ⟨w, hw, e, he⟩, fun ⟨w, hw, e, he⟩ => ⟨e, w, hw, he⟩⟩

/-- Settles O16: of the three things a step can do, only the fetch of a reserved word is a refusal. -/
theorem stepRefusesOnlyReservedWords : Obligations.StepRefusesOnlyReservedWords := by
  intro s why
  rw [← fetchInstr_reserved_iff]
  obtain ⟨halted, hs⟩ | ⟨i, hf, hs⟩ | ⟨e, hf, hs⟩ := step_cases s
  · simp [hs, (fetchInstr_eq_none_iff s).2 halted]
  · simp [hs, hf, exec_ne_refused]
  · simp [hs, hf, eq_comm]

/-! ### Text and image (30_encoding.md R81) -/

/-- Legal words are the encodings of some program. -/
theorem exists_map_encode {image : List InstrWord} (legal : ∀ w ∈ image, legalWord w = true) :
    ∃ program : List Instr, program.map encode = image := by
  have encoded : image ∈ {l : List InstrWord | ∀ w ∈ l, w ∈ Set.range encode} := fun w mem => by
    obtain ⟨i, hi⟩ := (legalWord_iff_decode w).1 (legal w mem)
    exact ⟨i, encode_of_decode hi⟩
  rwa [← Set.range_list_map] at encoded

/-- Both constructions load a program's words. -/
theorem constructImage_map_encode {nmax : Config.Capacity} {text : Text} {program : List Instr}
    (parsed : parse text = .ok program) (fits : program.length ≤ nmax.val) :
    constructImage nmax (program.map encode) = construct nmax text := by
  rw [construct_of_parse_ok parsed fits]
  exact constructImage_eq_ok_iff.2 ⟨imageWellFormed_map_encode fits, rfl⟩

/-- Settles O41: an image's words encode a program, and that program's printed text is the text. -/
theorem textAndImageDescribeTheSamePrograms : Obligations.TextAndImageDescribeTheSamePrograms := by
  refine fun nmax => ⟨fun text program parsed fits =>
    ⟨imageWellFormed_map_encode fits, constructImage_map_encode parsed fits⟩, fun image wellFormed => ?_⟩
  obtain ⟨fits, legal⟩ := (imageWellFormed_iff nmax image).1 wellFormed
  obtain ⟨program, rfl⟩ := exists_map_encode legal
  rw [List.length_map] at fits
  exact ⟨print program, program, parse_print program, rfl, (constructImage_map_encode (parse_print program) fits).symm⟩

end Sys2Proof.Machine
end

section
/-! Execution-loop family (40_execute_loop.md): the sum, the step, the ways to halt, and the run. -/

namespace Sys2Proof.Machine

/-! ### What an instruction answers, form by form -/

theorem exec_incReg (r : Reg) (s : State) : exec (.incReg r) s = .next (addTo r 1 s) := rfl

theorem exec_decReg (r : Reg) (s : State) : exec (.decReg r) s = .next (addTo r (-1) s) := rfl

theorem exec_jump (cond off : Value) (s : State) :
    exec (Instr.jump cond off) s = .next (jumpIfNonZero cond off s) := by
  cases cond <;> cases off <;> rfl

theorem exec_eq_next (i : Instr) (s : State) : ∃ t, exec i s = .next t := by
  obtain ⟨v, dst, -, he⟩ | ⟨r, k, -, he⟩ | ⟨cond, off, -, he⟩ := exec_cases i s <;> exact ⟨_, he⟩

theorem readReg_addTo_same (r : Reg) (k : Word) (s : State) : readReg (addTo r k s) r = add64 (readReg s r) k := by
  rw [readReg_addTo, if_pos rfl]

theorem jumpIfNonZero_pc_taken {cond off : Value} {s : State} (taken : (eval s cond).toInt ≠ 0) :
    (jumpIfNonZero cond off s).pc = add64 s.pc (eval s off) := by
  have nonzero : eval s cond ≠ 0 := fun zero => taken (by rw [zero]; rfl)
  rw [jumpIfNonZero_taken nonzero, jumpBy_pc]

/-- Where an instruction leaves `pc`: at the next slot, or at a taken jump's target. -/
theorem exec_pc_cases {i : Instr} {s t : State} (h : exec i s = .next t) :
    t.pc = s.pc + 1 ∨ ∃ cond off, i = Instr.jump cond off ∧ (eval s cond).toInt ≠ 0 ∧
      t.pc = add64 s.pc (eval s off) := by
  obtain ⟨v, dst, -, he⟩ | ⟨r, k, -, he⟩ | ⟨cond, off, hi, he⟩ := exec_cases i s
  · cases he.symm.trans h
    exact .inl (copy_pc v dst s)
  · cases he.symm.trans h
    exact .inl (addTo_pc r k s)
  · cases he.symm.trans h
    by_cases zero : (eval s cond).toInt = 0
    · exact .inl (by rw [jumpIfNonZero_notTaken (word_eq_of_toInt zero), advance_pc])
    · exact .inr ⟨cond, off, hi, zero, jumpIfNonZero_pc_taken zero⟩

/-! ### The sum (40_execute_loop.md R91) -/

/-- `I64` holds one member of each class modulo 2^64. -/
theorem eq_wrap64_of_emod_eq {z sum : Int} (hz : InI64 z) (h : z % 2 ^ 64 = sum % 2 ^ 64) : z = wrap64 sum := by
  simp only [InI64, i64Min, i64Max] at hz
  unfold wrap64
  omega

/-- Settles O9: `add64` is `wrap64` of the sum, and the three users of it are `addTo` twice and the taken jump. -/
theorem sumWrapsIntoTheSignedRange : Obligations.SumWrapsIntoTheSignedRange := by
  refine ⟨fun u v => ?_, fun s r => ?_, fun s cond off taken => ?_⟩
  · rw [add64_toInt]
    exact ⟨rfl, wrap64_of_inI64, fun z hz same_class => eq_wrap64_of_emod_eq hz same_class⟩
  · exact ⟨⟨_, exec_incReg r s, readReg_addTo_same r 1 s⟩, ⟨_, exec_decReg r s, readReg_addTo_same r (-1) s⟩⟩
  · exact ⟨_, exec_jump cond off s, jumpIfNonZero_pc_taken taken⟩

/-! ### One step (40_execute_loop.md R93, R94, R98) -/

theorem step_of_halted {s : State} (halted : Halted s) : step s = .next s := by
  simp only [step, (fetchInstr_eq_none_iff s).2 halted]

theorem step_of_fetchInstr {s : State} {i : Instr} (h : fetchInstr s = some (.ok i)) : step s = exec i s := by
  simp only [step, h]

/-- Settles O11: the word in slot `pc` is the one fetched, and its decoding is the instruction performed. -/
theorem stepRunsTheDecodedInstruction : Obligations.StepRunsTheDecodedInstruction := by
  intro s w i nonneg slot decoded
  apply step_of_fetchInstr
  rw [fetchInstr, ifetch_of_getElem nonneg slot, Option.map_some, decoded]

/-- A well-formed store holds no reserved word, so no step on it is refused. -/
theorem safe_of_storeInv {s : State} (inv : StoreInv s) : Safe s := by
  obtain ⟨-, hs⟩ | ⟨i, -, hs⟩ | ⟨e, hf, -⟩ := step_cases s
  · exact ⟨s, hs⟩
  · rw [Safe, hs]
    exact exec_eq_next i s
  · obtain ⟨w, fetched, reserved⟩ := (fetchInstr_reserved_iff s).1 ⟨e, hf⟩
    obtain ⟨-, legal⟩ := (imageWellFormed_iff _ _).1 inv
    simp [legal w (mem_of_ifetch fetched)] at reserved

/-- Settles O15: the step is safe, and a function has one answer. -/
theorem runningEngineHasOneSuccessor : Obligations.RunningEngineHasOneSuccessor := by
  intro s inv _
  obtain ⟨t, ht⟩ := safe_of_storeInv inv
  refine ⟨t, ht, fun t' ht' => ?_⟩
  cases ht.symm.trans ht'
  rfl

/-! ### The ways to halt (40_execute_loop.md R95) -/

/-- A Running machine's step performs the instruction it fetched. -/
theorem exists_exec_of_running {s t : State} (running : Running s) (h : step s = .next t) :
    ∃ i, fetchInstr s = some (.ok i) ∧ exec i s = .next t := by
  obtain ⟨halted, -⟩ | ⟨i, hf, hs⟩ | ⟨e, -, hs⟩ := step_cases s
  · exact absurd running ((not_running_iff_halted s).2 halted)
  · exact ⟨i, hf, hs.symm.trans h⟩
  · cases hs.symm.trans h

/-- Settles O13: a step to the next slot leaves the program only from its last slot, because `pc + 1` does not wrap;
any other step is a taken jump. -/
theorem programsHaltInOneOfThreeWays : Obligations.ProgramsHaltInOneOfThreeWays := by
  refine ⟨fetchInstr_eq_none_iff, fun s t inv running h halted => ?_⟩
  rw [Halted, step_keeps_prog h] at halted
  obtain ⟨i, fetched, performed⟩ := exists_exec_of_running running h
  obtain next_slot | ⟨cond, off, rfl, taken, -⟩ := exec_pc_cases performed
  · have exact_sum : t.pc.toInt = s.pc.toInt + 1 := by
      rw [next_slot, toInt_add_one (pc_lt_i64Max_of_running inv running)]
    obtain ⟨nonneg, inside⟩ := running
    exact .inl ⟨by omega, by omega⟩
  · exact .inr ⟨cond, off, fetched, taken, halted.symm⟩

/-! ### The run (40_execute_loop.md R97, R98, R99) -/

theorem running_or_halted (s : State) : Running s ∨ Halted s := by
  rw [← not_running_iff_halted]
  exact em (Running s)

theorem eq_of_runs_of_halted {s t : State} (halted : Halted s) (run : Runs s t) : t = s := by
  cases run with
  | halted => rfl
  | step running => exact absurd running ((not_running_iff_halted s).2 halted)

/-- What a host operation that returns from a Halted state leaves. -/
theorem call_of_halted {op : HostOp} {s t : State} {reply : Reply} (halted : Halted s) (call : Call op s reply t) :
    t = s ∨ ∃ r v, op = .writeRegister r v ∧ t = writeReg s r v := by
  cases op with
  | readRegister r => exact .inl call.2
  | writeRegister r v => exact .inr ⟨r, v, rfl, call.2⟩
  | run => exact .inl (eq_of_runs_of_halted halted call.2)
  | step =>
    cases (step_of_halted halted).symm.trans call.1
    exact .inl rfl
  | readPC => exact .inl call.2

/-- Settles O17: a register write is the one change, and writes neither `pc` nor the program. -/
theorem haltedIsAbsorbing : Obligations.HaltedIsAbsorbing := by
  intro op s t reply halted call
  obtain rfl | ⟨r, v, rfl, rfl⟩ := call_of_halted halted call
  · exact ⟨halted, rfl, rfl, fun _ => rfl⟩
  · have same_pc := writeReg_pc s r v
    have same_prog := writeReg_prog s r v
    refine ⟨?_, same_pc, same_prog, fun other => absurd rfl (other r v)⟩
    rwa [Halted, same_pc, same_prog]

/-- A run goes on from where a Step leads; on a Halted machine that is where it was. -/
theorem runs_of_step {s t u : State} (one : step s = .next t) (rest : Runs t u) : Runs s u := by
  obtain running | halted := running_or_halted s
  · exact .step running one rest
  · cases (step_of_halted halted).symm.trans one
    exact rest

theorem halted_of_runs {s t : State} (run : Runs s t) : Halted t := by
  induction run with
  | halted h => exact h
  | step _ _ _ ih => exact ih

/-- By induction on the one run: each step of the other is the same step. -/
theorem runs_unique {s t t' : State} (run : Runs s t) (run' : Runs s t') : t' = t := by
  induction run with
  | halted h => exact eq_of_runs_of_halted h run'
  | step running one _ ih =>
    cases run' with
    | halted h => exact absurd running ((not_running_iff_halted _).2 h)
    | step _ one' rest' =>
      cases one.symm.trans one'
      exact ih rest'

theorem stepMany_succ_of_step {s t : State} (h : step s = .next t) (k : Nat) :
    stepMany (k + 1) s = stepMany k t := by
  simp only [stepMany, h]

theorem exists_stepMany_of_runs {s t : State} (run : Runs s t) : ∃ k, stepMany k s = .next t := by
  induction run with
  | halted => exact ⟨0, rfl⟩
  | step _ one _ ih =>
    obtain ⟨k, hk⟩ := ih
    exact ⟨k + 1, (stepMany_succ_of_step one k).trans hk⟩

/-- By induction on the number of Steps: a machine with no finished run is Running, and so is its successor. -/
theorem stepMany_running_of_not_runs {s : State} (inv : StoreInv s) (endless : ∀ t, ¬ Runs s t) (k : Nat) :
    ∃ t, stepMany k s = .next t ∧ Running t := by
  induction k generalizing s with
  | zero =>
    have not_halted : ¬ Halted s := fun halted => endless s (.halted halted)
    exact ⟨s, rfl, (running_or_halted s).resolve_right not_halted⟩
  | succ k ih =>
    obtain ⟨t, one⟩ := safe_of_storeInv inv
    rw [stepMany_succ_of_step one]
    exact ih (storeInv_of_prog (step_keeps_prog one) inv) fun u rest => endless u (runs_of_step one rest)

/-- Settles O18: a finished run is a number of Steps that ends Halted, and without one every number of Steps leaves the
machine Running. -/
theorem everyRunEndsOnceOrNever : Obligations.EveryRunEndsOnceOrNever := by
  intro s inv
  by_cases finished : ∃ t, Runs s t
  · obtain ⟨t, run⟩ := finished
    have halted := halted_of_runs run
    refine .inl ⟨⟨t, run, halted, fun t' run' => runs_unique run run'⟩, fun always => ?_⟩
    obtain ⟨k, hk⟩ := exists_stepMany_of_runs run
    obtain ⟨u, hu, running⟩ := always k
    cases hk.symm.trans hu
    exact (not_running_iff_halted t).2 halted running
  · have endless : ∀ t, ¬ Runs s t := not_exists.1 finished
    exact .inr ⟨stepMany_running_of_not_runs inv endless, endless⟩

end Sys2Proof.Machine
end

section
/-! Copy family (41_cpy.md): what a `cpy` does, and what an instruction can leave in a register. -/

namespace Sys2Proof

/-- A word is its control nibble and its two payloads (30_encoding.md R74, R75). -/
theorem assemble_eq_controlNibble (op : BitVec 2) (xk yk : Bool) (x y : Word) :
    assemble op xk yk x y = controlNibble op xk yk ++ x ++ y := rfl

end Sys2Proof

namespace Sys2Proof.Machine

/-! ### The effect and the frame of a `cpy` (41_cpy.md R100) -/

theorem exec_copy (v : Value) (dst : Reg) (s : State) : exec (Instr.copy v dst) s = .next (copy v dst s) := by
  cases v <;> rfl

theorem readReg_copy_same (v : Value) (dst : Reg) (s : State) : readReg (copy v dst s) dst = eval s v := by
  rw [readReg_copy, if_pos rfl]

theorem sameRegsBut_copy (v : Value) (dst : Reg) (s : State) : SameRegsBut dst s (copy v dst s) := by
  intro q other
  rw [readReg_copy, if_neg other]

/-- Both forms at once: a `cpy` completes, with its effect and its frame. -/
theorem exists_exec_copy (v : Value) (dst : Reg) (s : State) :
    ∃ t, exec (Instr.copy v dst) s = .next t ∧ readReg t dst = eval s v ∧ SameRegsBut dst s t ∧
      t.pc = s.pc + 1 ∧ t.prog = s.prog :=
  ⟨_, exec_copy v dst s, readReg_copy_same v dst s, sameRegsBut_copy v dst s, copy_pc v dst s, copy_prog v dst s⟩

/-- Settles O1: the two forms are `Instr.copy` of an immediate and of a register, and so are their words and lines. -/
theorem copyWritesTheEvaluatedSource : Obligations.CopyWritesTheEvaluatedSource := by
  refine ⟨fun s dst => ⟨fun k => exists_exec_copy (.imm k) dst s, fun src => exists_exec_copy (.reg src) dst s⟩,
    fun k dst => ?_, fun src dst => ?_, fun t1 t2 v dst source destination => ?_⟩
  · rw [encode, assemble_eq_controlNibble, show controlNibble Opcode.cpy.bits false true = 0x1#4 by decide, encodeReg]
  · rw [encode, assemble_eq_controlNibble, show controlNibble Opcode.cpy.bits true true = 0x3#4 by decide, encodeReg,
      encodeReg]
  · rw [lineInstr_of_opcode (op := .cpy) (by decide), instrOf_copy source destination]
    rfl

/-! ### What an instruction leaves in a register (41_cpy.md R101) -/

/-- Settles O6: of the three shared meanings, a `cpy` into another register and a jump leave `r`, and `addTo` adds 1 or
-1 to its own register. -/
theorem onlyCopyWritesAnUnrelatedValue : Obligations.OnlyCopyWritesAnUnrelatedValue := by
  intro i s t r h notCopy
  obtain ⟨v, dst, rfl, he⟩ | ⟨q, k, hi, he⟩ | ⟨cond, off, -, he⟩ := exec_cases i s
  · cases he.symm.trans h
    have other : r ≠ dst := fun same => notCopy v (by rw [same])
    exact .inl (sameRegsBut_copy v dst s r other)
  · cases he.symm.trans h
    by_cases same : r = q
    · subst same
      rw [readReg_addTo_same, add64_eq_add]
      obtain ⟨rfl, rfl⟩ | ⟨rfl, rfl⟩ := hi
      · exact .inr (.inl ⟨rfl, rfl⟩)
      · exact .inr (.inr ⟨rfl, (BitVec.sub_eq_add_neg _ _).symm⟩)
    · exact .inl (by rw [readReg_addTo, if_neg same])
  · cases he.symm.trans h
    exact .inl (readReg_jumpIfNonZero cond off s r)

/-- Operands read the registers alone (40_execute_loop.md R90). -/
theorem eval_of_sameRegs {s s' : State} (same : SameRegs s s') (v : Value) : eval s' v = eval s v := by
  cases v with
  | imm k => rfl
  | reg r => exact same r

theorem sameRegs_setPc (s : State) (p : Word) : SameRegs s { s with pc := p } := by
  intro r
  cases r <;> rfl

/-- The registers after an instruction are a function of the registers before it. -/
theorem exec_sameRegs {i : Instr} {s s' t t' : State} (same : SameRegs s s') (h : exec i s = .next t)
    (h' : exec i s' = .next t') : SameRegs t t' := by
  intro r
  obtain ⟨v, dst, rfl, he⟩ | ⟨q, k, hi, he⟩ | ⟨cond, off, rfl, he⟩ := exec_cases i s
  · cases he.symm.trans h
    cases (exec_copy v dst s').symm.trans h'
    rw [readReg_copy, readReg_copy, eval_of_sameRegs same, same r]
  · have he' : exec i s' = .next (addTo q k s') := by obtain ⟨rfl, rfl⟩ | ⟨rfl, rfl⟩ := hi <;> rfl
    cases he.symm.trans h
    cases he'.symm.trans h'
    rw [readReg_addTo, readReg_addTo, same q, same r]
  · cases he.symm.trans h
    cases (exec_jump cond off s').symm.trans h'
    rw [readReg_jumpIfNonZero, readReg_jumpIfNonZero, same r]

/-- Settles O7: states that differ in `pc` alone hold the same registers, and `pc` is read by none of the meanings'
register writes. -/
theorem registersDoNotLearnThePc : Obligations.RegistersDoNotLearnThePc :=
  fun _ s _ _ p h h' => exec_sameRegs (sameRegs_setPc s p) h h'

end Sys2Proof.Machine
end

section
/-! Increment and decrement family (42_inc_dec.md): the two ends of the range, the frame, and the cancelling pair. -/

namespace Sys2Proof.Machine

/-! ### The sums `v + 1` and `v - 1` (42_inc_dec.md R105, R106) -/

theorem add64_toInt_of_inI64 {u v : Word} (h : InI64 (u.toInt + v.toInt)) :
    (add64 u v).toInt = u.toInt + v.toInt := by
  rw [add64_toInt, wrap64_of_inI64 h]

theorem add64_one_toInt {v : Word} (h : v.toInt ≠ i64Max) : (add64 v 1).toInt = v.toInt + 1 := by
  have one : (1 : Word).toInt = 1 := by decide
  have inRange : InI64 (v.toInt + 1) := by
    obtain ⟨low, high⟩ := inI64_toInt v
    exact ⟨by omega, by omega⟩
  rw [add64_toInt_of_inI64 (by rwa [one]), one]

/-- Decision D4 at the greatest value. -/
theorem add64_one_toInt_of_max {v : Word} (h : v.toInt = i64Max) : (add64 v 1).toInt = i64Min := by
  rw [add64_toInt, h]
  decide

theorem add64_neg_one_toInt {v : Word} (h : v.toInt ≠ i64Min) : (add64 v (-1)).toInt = v.toInt - 1 := by
  have minusOne : (-1 : Word).toInt = -1 := by decide
  have inRange : InI64 (v.toInt + -1) := by
    obtain ⟨low, high⟩ := inI64_toInt v
    exact ⟨by omega, by omega⟩
  rw [add64_toInt_of_inI64 (by rwa [minusOne]), minusOne, Int.sub_eq_add_neg]

/-- Decision D4 at the least value. -/
theorem add64_neg_one_toInt_of_min {v : Word} (h : v.toInt = i64Min) : (add64 v (-1)).toInt = i64Max := by
  rw [add64_toInt, h]
  decide

theorem add64_cancel (v : Word) {k l : Word} (h : k + l = 0) : add64 (add64 v k) l = v := by
  rw [add64_eq_add, add64_eq_add, add_assoc, h, add_zero]

/-! ### The frame and the cancelling pair (42_inc_dec.md R107) -/

theorem sameRegsBut_addTo (r : Reg) (k : Word) (s : State) : SameRegsBut r s (addTo r k s) := by
  intro q other
  rw [readReg_addTo, if_neg other]

/-- Adding two opposite words one after the other restores every register. -/
theorem sameRegs_addTo_addTo {k l : Word} (h : k + l = 0) (r : Reg) (s : State) :
    SameRegs s (addTo r l (addTo r k s)) := by
  intro q
  by_cases same : q = r
  · subst same
    rw [readReg_addTo_same, readReg_addTo_same, add64_cancel _ h]
  · rw [sameRegsBut_addTo r l _ q same, sameRegsBut_addTo r k s q same]

/-- The pair restores every register, leaves the program and advances `pc` by two. -/
theorem addTo_addTo_of_opposite {k l : Word} (h : k + l = 0) (r : Reg) (s : State) :
    SameRegs s (addTo r l (addTo r k s)) ∧ (addTo r l (addTo r k s)).pc = s.pc + 2 ∧
      (addTo r l (addTo r k s)).prog = s.prog := by
  refine ⟨sameRegs_addTo_addTo h r s, ?_, ?_⟩
  · rw [addTo_pc, addTo_pc, add_assoc, show (1 : Word) + 1 = 2 by decide]
  · rw [addTo_prog, addTo_prog]

/-! ### The word and the line (30_encoding.md R69, R77) -/

theorem encode_incReg (r : Reg) : encode (.incReg r) = 0x6#4 ++ encodeReg r ++ 0#64 := by
  rw [encode, assemble_eq_controlNibble, show controlNibble Opcode.inc.bits true false = 0x6#4 by decide]

theorem encode_decReg (r : Reg) : encode (.decReg r) = 0xA#4 ++ encodeReg r ++ 0#64 := by
  rw [encode, assemble_eq_controlNibble, show controlNibble Opcode.dec.bits true false = 0xA#4 by decide]

theorem lineInstr_inc {t : Token} {r : Reg} (h : register t = .ok r) :
    lineInstr ["inc".toList, t] = .ok (some (.incReg r)) := by
  rw [lineInstr_of_opcode (op := .inc) (by decide), instrOf_inc, h]
  rfl

theorem lineInstr_dec {t : Token} {r : Reg} (h : register t = .ok r) :
    lineInstr ["dec".toList, t] = .ok (some (.decReg r)) := by
  rw [lineInstr_of_opcode (op := .dec) (by decide), instrOf_dec, h]
  rfl

/-! ### The obligations -/

/-- Settles O2: `inc` is `addTo` of 1, exact but at the greatest value. -/
theorem incrementAddsOne : Obligations.IncrementAddsOne := by
  refine ⟨fun s r => ⟨_, exec_incReg r s, fun below => ?_, fun atMax => ?_, sameRegsBut_addTo r 1 s, addTo_pc r 1 s,
    addTo_prog r 1 s⟩, encode_incReg, fun _ _ => lineInstr_inc⟩
  · rw [readReg_addTo_same, add64_one_toInt below]
  · rw [readReg_addTo_same, add64_one_toInt_of_max atMax]

/-- Settles O3: `dec` is `addTo` of -1, exact but at the least value. -/
theorem decrementSubtractsOne : Obligations.DecrementSubtractsOne := by
  refine ⟨fun s r => ⟨_, exec_decReg r s, fun above => ?_, fun atMin => ?_, sameRegsBut_addTo r (-1) s,
    addTo_pc r (-1) s, addTo_prog r (-1) s⟩, encode_decReg, fun _ _ => lineInstr_dec⟩
  · rw [readReg_addTo_same, add64_neg_one_toInt above]
  · rw [readReg_addTo_same, add64_neg_one_toInt_of_min atMin]

/-- Settles O5: 1 and -1 are opposite words, in either order. -/
theorem incrementAndDecrementUndoEachOther : Obligations.IncrementAndDecrementUndoEachOther := fun s r =>
  ⟨⟨_, _, exec_incReg r s, exec_decReg r _, addTo_addTo_of_opposite (by decide) r s⟩,
    ⟨_, _, exec_decReg r s, exec_incReg r _, addTo_addTo_of_opposite (by decide) r s⟩⟩

end Sys2Proof.Machine
end

section
/-! Jump family (43_jnz.md): the sum of a taken jump outside `I64`, the four forms, and the spin. -/

namespace Sys2Proof

theorem assemble_of_controlNibble {op : BitVec 2} {xk yk : Bool} {n : BitVec 4} (h : controlNibble op xk yk = n)
    (x y : Word) : assemble op xk yk x y = n ++ x ++ y := by
  rw [assemble_eq_controlNibble, h]

end Sys2Proof

namespace Sys2Proof.Machine

/-! ### A sum of two words outside `I64` (decision D4) -/

theorem wrap64_of_high {z : Int} (high : i64Max < z) (bound : z < 2 ^ 64) : wrap64 z = z - 2 ^ 64 := by
  unfold i64Max at high
  unfold wrap64
  omega

theorem wrap64_of_low {z : Int} (low : z < i64Min) (bound : -2 ^ 64 ≤ z) : wrap64 z = z + 2 ^ 64 := by
  unfold i64Min at low
  unfold wrap64
  omega

theorem toInt_add_toInt_bounds (u v : Word) : -2 ^ 64 ≤ u.toInt + v.toInt ∧ u.toInt + v.toInt < 2 ^ 64 := by
  have hu := inI64_toInt u
  have hv := inI64_toInt v
  simp only [InI64, i64Min, i64Max] at hu hv
  omega

/-! ### The effect of a `jnz` (43_jnz.md R110) -/

theorem jumpIfNonZero_pc_notTaken {cond off : Value} {s : State} (zero : (eval s cond).toInt = 0) :
    (jumpIfNonZero cond off s).pc = s.pc + 1 := by
  rw [jumpIfNonZero_notTaken (word_eq_of_toInt zero), advance_pc]

theorem jumpEffect_jumpIfNonZero (cond off : Value) (s : State) :
    JumpEffect (eval s cond) (eval s off) s (jumpIfNonZero cond off s) := by
  refine ⟨readReg_jumpIfNonZero cond off s, jumpIfNonZero_prog cond off s, jumpIfNonZero_pc_notTaken, fun taken => ?_⟩
  rw [jumpIfNonZero_pc_taken taken, add64_toInt]
  obtain ⟨bound_below, bound_above⟩ := toInt_add_toInt_bounds s.pc (eval s off)
  exact ⟨wrap64_of_inI64, fun high => wrap64_of_high high bound_above, fun low => wrap64_of_low low bound_below⟩

/-- The four forms at once: a `jnz` completes, with its effect and its frame. -/
theorem exists_exec_jump (cond off : Value) (s : State) :
    ∃ t, exec (Instr.jump cond off) s = .next t ∧ JumpEffect (eval s cond) (eval s off) s t :=
  ⟨_, exec_jump cond off s, jumpEffect_jumpIfNonZero cond off s⟩

theorem lineInstr_jnz {t1 t2 : Token} {cond off : Value} (h1 : value t1 = .ok cond) (h2 : value t2 = .ok off) :
    lineInstr ["jnz".toList, t1, t2] = .ok (some (Instr.jump cond off)) := by
  rw [lineInstr_of_opcode (op := .jnz) (by decide), instrOf_jump h1 h2]
  rfl

/-- Settles O4: the four forms are `Instr.jump` of immediates and registers; each word is assembled from the kinds of
its operands. -/
theorem jumpReplacesTheIncrement : Obligations.JumpReplacesTheIncrement := by
  refine ⟨fun s => ⟨fun cond off => ?_, fun cond off => ?_, fun cond off => ?_, fun cond off => ?_⟩,
    assemble_of_controlNibble (by decide), fun cond off => ?_, fun cond off => ?_, fun cond off => ?_,
    fun _ _ _ _ => lineInstr_jnz⟩
  · exact exists_exec_jump (.imm cond) (.imm off) s
  · exact exists_exec_jump (.imm cond) (.reg off) s
  · exact exists_exec_jump (.reg cond) (.imm off) s
  · exact exists_exec_jump (.reg cond) (.reg off) s
  · exact assemble_of_controlNibble (by decide) cond (encodeReg off)
  · exact assemble_of_controlNibble (by decide) (encodeReg cond) off
  · exact assemble_of_controlNibble (by decide) (encodeReg cond) (encodeReg off)

/-- Settles O8: where `pc` leaves the next slot it is a taken jump's target, and an offset of 1 is the next slot. -/
theorem onlyTakenJumpsLeaveTheNextSlot : Obligations.OnlyTakenJumpsLeaveTheNextSlot := by
  intro i s t performed elsewhere
  obtain next_slot | ⟨cond, off, hi, taken, target⟩ := exec_pc_cases performed
  · exact absurd next_slot elsewhere
  · refine ⟨cond, off, hi, taken, fun one => elsewhere ?_⟩
    have off_one : eval s off = 1 := word_eq_of_toInt one
    rw [target, off_one, add64_eq_add]

/-! ### The policies on a jump's target (43_jnz.md R112) -/

theorem narrow_of_inI64 (policy : OverflowPolicy) {z : Int} (h : InI64 z) : narrow policy z = z := by
  cases policy with
  | wrap => exact wrap64_of_inI64 h
  | saturate => rw [narrow, saturate64, min_eq_right h.2, max_eq_right h.1]

/-- A sum above `I64` is narrowed to a negative `pc` or to the greatest one. -/
theorem narrow_of_high (policy : OverflowPolicy) {z : Int} (high : i64Max < z) (bound : z < 2 ^ 64) :
    narrow policy z < 0 ∨ narrow policy z = i64Max := by
  cases policy with
  | wrap =>
    have wrapped : narrow .wrap z = z - 2 ^ 64 := wrap64_of_high high bound
    exact .inl (by omega)
  | saturate => exact .inr (by rw [narrow, saturate64, min_eq_left high.le]; rfl)

/-- Settles O10: from inside the program a sum can leave `I64` only above, and both policies then leave the program, as
the exact sum does. -/
theorem haltingDoesNotDependOnThePolicy : Obligations.HaltingDoesNotDependOnThePolicy := by
  intro policy p off n nonneg inside capacity
  have not_low : i64Min ≤ p.toInt + off.toInt := by
    obtain ⟨low, -⟩ := inI64_toInt off
    omega
  refine ⟨not_low, ?_⟩
  by_cases high : i64Max < p.toInt + off.toInt
  · obtain ⟨-, bound⟩ := toInt_add_toInt_bounds p off
    obtain negative | greatest := narrow_of_high policy high bound <;> omega
  · rw [narrow_of_inI64 policy ⟨not_low, not_lt.1 high⟩]

/-! ### The spin (43_jnz.md R110, corner case 4) -/

theorem exec_jump_by_zero {cond off : Value} {s : State} (taken : (eval s cond).toInt ≠ 0)
    (zero : (eval s off).toInt = 0) : exec (Instr.jump cond off) s = .next s := by
  have off_zero : eval s off = 0 := word_eq_of_toInt zero
  have same_pc : (jumpIfNonZero cond off s).pc = s.pc := by
    rw [jumpIfNonZero_pc_taken taken, off_zero, add64_eq_add, add_zero]
  rw [exec_jump, State.eq_of_fields (readReg_jumpIfNonZero cond off s) same_pc (jumpIfNonZero_prog cond off s)]

theorem running_of_fetchInstr {s : State} {verdict : Except Reserved Instr} (h : fetchInstr s = some verdict) :
    Running s := by
  refine (running_or_halted s).resolve_right fun halted => ?_
  cases ((fetchInstr_eq_none_iff s).2 halted).symm.trans h

/-- By induction on a supposed run: its next state is the one it began in. -/
theorem not_runs_of_step_self {s t : State} (running : Running s) (spin : step s = .next s) : ¬ Runs s t := by
  intro run
  induction run with
  | halted h => exact (not_running_iff_halted _).2 h running
  | step _ one _ ih =>
    cases spin.symm.trans one
    exact ih running spin

/-- Settles O21: the fetched jump answers the state it began in, which is Running. -/
theorem takenJumpByZeroNeverEnds : Obligations.TakenJumpByZeroNeverEnds := by
  intro s cond off fetched taken zero
  have spin : step s = .next s := (step_of_fetchInstr fetched).trans (exec_jump_by_zero taken zero)
  exact ⟨spin, fun _ => not_runs_of_step_self (running_of_fetchInstr fetched) spin⟩

end Sys2Proof.Machine
end

section
/-! Exceptions family (60_exceptions.md): execution raises nothing, and of two bad operands the left one is reported. -/

namespace Sys2Proof.Machine

/-! ### Engines under Steps (60_exceptions.md R120) -/

theorem engine_safe {nmax : Config.Capacity} {s : State} (engine : Engine nmax s) : Safe s :=
  safe_of_storeInv (imageWellFormed_largest (engine_imageWellFormed engine))

/-- A Step is a host operation, so it leads from an engine to an engine. -/
theorem engine_of_step {nmax : Config.Capacity} {s t : State} (engine : Engine nmax s) (one : step s = .next t) :
    Engine nmax t :=
  .after (op := .step) engine ⟨one, rfl⟩

/-- By induction on the number of Steps: an engine is safe, and its successor is an engine again. -/
theorem engine_stepMany {nmax : Config.Capacity} {s : State} (engine : Engine nmax s) (k : Nat) :
    ∃ t, stepMany k s = .next t ∧ Engine nmax t := by
  induction k generalizing s with
  | zero => exact ⟨s, rfl, engine⟩
  | succ k ih =>
    obtain ⟨t, one⟩ := engine_safe engine
    rw [stepMany_succ_of_step one]
    exact ih (engine_of_step engine one)

/-- Settles O26: every instruction answers a next state, and every state that Steps reach from an engine is an engine,
whose store holds no word a step refuses. -/
theorem executionRaisesNothing : Obligations.ExecutionRaisesNothing := by
  refine ⟨exec_eq_next, fun nmax s engine => ⟨engine_safe engine, fun k => ?_⟩⟩
  obtain ⟨t, reached, again⟩ := engine_stepMany engine k
  exact ⟨t, reached, engine_safe again, again⟩

/-! ### The order of a line's errors (60_exceptions.md R125, decision D12) -/

/-- A malformed source is what a copy raises, whatever its destination is. -/
theorem instrOf_copy_source_error {t1 : Token} {e : LoadError} (h : value t1 = .error e) (t2 : Token) :
    instrOf .cpy [t1, t2] = .error e := by
  simp only [instrOf, h, bind, Except.bind]

/-- A malformed condition is what a jump raises, whatever its offset is. -/
theorem instrOf_jump_condition_error {t1 : Token} {e : LoadError} (h : value t1 = .error e) (t2 : Token) :
    instrOf .jnz [t1, t2] = .error e := by
  simp only [instrOf, h, bind, Except.bind]

/-- Settles O39: both lines read their first operand token before they look at the second. -/
theorem leftOperandIsReportedFirst : Obligations.LeftOperandIsReportedFirst := by
  refine fun t1 t2 e bad => ⟨?_, ?_⟩
  · rw [lineInstr_of_opcode (op := .cpy) (by decide), instrOf_copy_source_error bad]
    rfl
  · rw [lineInstr_of_opcode (op := .jnz) (by decide), instrOf_jump_condition_error bad]
    rfl

end Sys2Proof.Machine
end

section
/-! Reset and hazards family (70_reset_and_hazards.md): Step and Run tied to each other, and the host's reads and writes
of registers. -/

namespace Sys2Proof.Machine

/-! ### Step and its answer (70_reset_and_hazards.md R156) -/

theorem status_of_running {s : State} (running : Running s) : status s = .running := if_pos running

theorem status_of_halted {s : State} (halted : Halted s) : status s = .halted :=
  if_neg ((not_running_iff_halted s).2 halted)

/-- More than none Steps that all perform are one Step and then the rest. -/
theorem exists_step_of_stepMany_succ {k : Nat} {s u : State} (h : stepMany (k + 1) s = .next u) :
    ∃ t, step s = .next t ∧ stepMany k t = .next u := by
  cases one : step s with
  | next t => exact ⟨t, rfl, (stepMany_succ_of_step one k).symm.trans h⟩
  | fault why => cases why
  | refused why => simp [stepMany, one] at h

/-! ### Run (70_reset_and_hazards.md R155, 40_execute_loop.md R97) -/

/-- By induction on the number of Steps: each is a step of the run, or changes nothing on a Halted machine. -/
theorem runs_of_stepMany {k : Nat} {s t : State} (reached : stepMany k s = .next t) (halted : Halted t) :
    Runs s t := by
  induction k generalizing s with
  | zero =>
    cases reached
    exact .halted halted
  | succ k ih =>
    obtain ⟨u, one, rest⟩ := exists_step_of_stepMany_succ reached
    exact runs_of_step one (ih rest)

/-- A Step does not change where the run ends; on a Halted machine it leads to the same state. -/
theorem runs_iff_of_step {s t u : State} (one : step s = .next t) : Runs s u ↔ Runs t u := by
  refine ⟨fun run => ?_, runs_of_step one⟩
  cases run with
  | halted halted =>
    cases (step_of_halted halted).symm.trans one
    exact .halted halted
  | step _ one' rest =>
    cases one.symm.trans one'
    exact rest

/-- Settles O19: a Step's answer is the status of the state it leaves, and a run's steps are counted Steps that end
Halted. -/
theorem runIsStepUntilHalted : Obligations.RunIsStepUntilHalted := by
  refine ⟨fun s t reply call => ?_, fun s t => ⟨fun run => ?_, fun ⟨_, reached, halted⟩ =>
    runs_of_stepMany reached halted⟩⟩
  · obtain ⟨one, rfl⟩ := call
    refine ⟨fun halted => ?_, fun running => by rw [status_of_running running],
      fun halted => by rw [status_of_halted halted]⟩
    cases (step_of_halted halted).symm.trans one
    rfl
  · obtain ⟨k, reached⟩ := exists_stepMany_of_runs run
    exact ⟨k, reached, halted_of_runs run⟩

/-- Settles O20: the loop ends only where its test fails, and a Halted state is its own end. -/
theorem runReturnsExactlyWhenHalted : Obligations.RunReturnsExactlyWhenHalted := by
  refine ⟨fun s t reply call => ?_, fun s t reply halted => ⟨fun call => ?_, fun returned => ?_⟩,
    fun s t _ one u => runs_iff_of_step one⟩
  · obtain ⟨answer, run⟩ := call
    exact ⟨halted_of_runs run, answer⟩
  · obtain ⟨answer, run⟩ := call
    exact ⟨eq_of_runs_of_halted halted run, answer⟩
  · obtain ⟨rfl, answer⟩ := returned
    exact ⟨answer, .halted halted⟩

/-! ### ReadRegister and WriteRegister (70_reset_and_hazards.md R153, R154) -/

/-- WriteRegister moves neither `pc` nor the program, of which alone the Halted test speaks. -/
theorem halted_writeReg {s : State} (r : Reg) (v : Word) (halted : Halted s) : Halted (writeReg s r v) := by
  rwa [Halted, writeReg_pc, writeReg_prog]

/-- Settles O27: the reads leave the state as it is, and the one state a write leaves is `writeReg s r v`, whose fields
the register rules give. -/
theorem hostReadsBackWhatItWrites : Obligations.HostReadsBackWhatItWrites := by
  intro s r v
  refine ⟨fun _ _ => Iff.rfl, fun _ _ => Iff.rfl, writeReg s r v, fun _ _ => Iff.rfl,
    fun _ other => readReg_writeReg_other s r v other, writeReg_pc s r v, writeReg_prog s r v,
    halted_writeReg r v, fun _ answer read => ?_⟩
  obtain ⟨rfl, -⟩ := read
  rw [readReg_writeReg_same]

end Sys2Proof.Machine
end

section
/-! Test vectors family (95_test_vectors.md part 5): the words the spec writes out, each the encoding of the instruction
it stands for or an instance of one case of the reserved words (30_encoding.md R79). -/

namespace Sys2Proof

/-! ### The reason a reserved word is refused for, one lemma per reason -/

/-- No `cpy` has an immediate destination, whatever its payloads. -/
theorem decode_assemble_cpy_immDst (xk : Bool) (x y : Word) :
    decode (assemble Opcode.cpy.bits xk false x y) = .error .controlNibble := by
  simp [decode]

theorem decodeReg_of_noRegister {p : Word} (h : NoRegister p) : decodeReg p = .error .registerBits := if_neg h

theorem decode_assemble_cpy_noSource {x : Word} (h : NoRegister x) (y : Word) :
    decode (assemble Opcode.cpy.bits true true x y) = .error .registerBits := by
  simp [decode, decodeValue, decodeReg_of_noRegister h, Except.map, bind, Except.bind]

theorem decode_assemble_inc_unused (r : Reg) {y : Word} (h : y ≠ 0#64) :
    decode (assemble Opcode.inc.bits true false (encodeReg r) y) = .error .unusedPayload := by
  simp [decode, decodeOnlyReg, Except.map, h]

/-! ### The spec's words -/

/-- Settles O31: the eight legal words are encodings, and each reserved word is assembled from the fields of its case. -/
theorem wordsOfTheSpecDecode : Obligations.WordsOfTheSpecDecode := by
  refine ⟨decode_eq_ok_iff.2 (by decide), decode_eq_ok_iff.2 (by decide), decode_eq_ok_iff.2 (by decide),
    decode_eq_ok_iff.2 (by decide), decode_eq_ok_iff.2 (by decide), decode_eq_ok_iff.2 (by decide),
    decode_eq_ok_iff.2 (by decide), decode_eq_ok_iff.2 (by decide), ?nibble, ?payload, ?unused⟩
  case nibble =>
    have fields : assemble Opcode.cpy.bits false false 0 0 = 0x000000000000000000000000000000000 := by decide
    exact fields ▸ decode_assemble_cpy_immDst false 0 0
  case payload =>
    have fields : assemble Opcode.cpy.bits true true 4 0 = 0x300000000000000040000000000000000 := by decide
    exact fields ▸ decode_assemble_cpy_noSource (by decide) 0
  case unused =>
    have fields : assemble Opcode.inc.bits true false (encodeReg .b) 1 = 0x600000000000000010000000000000001 := by
      decide
    exact fields ▸ decode_assemble_inc_unused .b (by decide)

end Sys2Proof
end
